-- ==== Sys2Proof/Word.lean ====
section
/-!
DEFINITION. The data of the MessageHandler CORE: bit strings (00_scope R11), bytes, and 32-bit port words.
-/

namespace Sys2Proof

/-- A finite sequence of bits (00_scope R11). Position 0 is the first-transmitted bit and, read as a number, the most
significant one (R12). -/
abbrev BitStr := List Bool

/-- A byte of a frame or of a packed descriptor. -/
abbrev Byte := BitVec 8

/-- The width of `req_frame` and of `sval` (10_state R28). -/
abbrev Word32 := BitVec 32

end Sys2Proof
end

