-- ==== Sys2Proof/Config.lean ====
section
/-!
DEFINITION. The instance parameters of the CORE (00_scope R7): fixed when an instance is made, read by the operations,
written by none (10_state R21, R26).
-/

namespace Sys2Proof

/-- The eight parameters of 00_scope R7, in the table's order. -/
structure Params where
  /-- `CMD_IN_W`: width in bits of the command-number input. -/
  cmdInW : Nat
  /-- `CMD_SIGNED`: whether `cmd` is read as two's complement. -/
  cmdSigned : Bool
  /-- `CKSUM_OR_CARRY`: true for the literal bitwise-OR packing of the checksum (40_request_builder R84). -/
  cksumOrCarry : Bool
  /-- `LEN_FIELD_W`: width of the response length field. -/
  lenFieldW : Nat
  /-- `PAY_POS`: first frame bit of the response payload, and the length of the shortest frame that is not short. -/
  payPos : Nat
  /-- `STRICT_LEN`: true when a short frame is an error. -/
  strictLen : Bool
  /-- `MAX_IN_BITS`: the largest input bit string. -/
  maxInBits : Nat
  /-- `LEN_W`: width of `in_len` and `out_len`. -/
  lenW : Nat
deriving DecidableEq, Repr

/-- The Default column of 00_scope R7: layout A, unsigned 64-bit command numbers, masked checksum, silent short reads. -/
def Params.default : Params where
  cmdInW := 64
  cmdSigned := false
  cksumOrCarry := false
  lenFieldW := 16
  payPos := 40
  strictLen := false
  maxInBits := 524320
  lenW := 20

/-- The legal values of 00_scope R7. Of the four pairs of `LEN_FIELD_W` and `PAY_POS` the last bound leaves layouts A,
B and C (30_encoding R62). -/
abbrev Params.Legal (p : Params) : Prop :=
  8 ≤ p.cmdInW ∧ (p.lenFieldW = 16 ∨ p.lenFieldW = 8) ∧ (p.payPos = 40 ∨ p.payPos = 32) ∧
    24 + p.lenFieldW ≤ p.payPos ∧ p.payPos ≤ p.maxInBits ∧ p.maxInBits < 2 ^ p.lenW

end Sys2Proof
end

