-- ==== Sys2Proof/Machine/BitString.lean ====
section
/-!
DEFINITION. The bit-string and word primitives of 00_scope R10 and R11, and the least-significant-first forms that lay
port words out as bits and bytes.
-/

namespace Sys2Proof

/-- `s⟨a:b)` (00_scope R11): positions a up to b-1, clamped at the end of `s`. -/
def slice (s : BitStr) (a b : Nat) : BitStr := (s.take b).drop a

/-- `val(s)` (00_scope R11): `s` as an unsigned number, position 0 most significant. -/
def val : BitStr → Nat
  | [] => 0
  | b :: t => b.toNat * 2 ^ t.length + val t

/-- `bits_w(v)` (00_scope R11): the low `w` bits of `v`, most significant first. -/
def bitsOf : Nat → Nat → BitStr
  | 0, _ => []
  | w + 1, v => v.testBit w :: bitsOf w v

/-- `v[hi:lo]` (00_scope R10). -/
def wordField (v hi lo : Nat) : Nat := v / 2 ^ lo % 2 ^ (hi - lo + 1)

/-- `sext_N(v, w)` (00_scope R10): the N-bit word of the w-bit two's-complement value of `v`. -/
def sext (N v w : Nat) : Nat :=
  if wordField v (w - 1) (w - 1) = 0 then v else (v + 2 ^ N - 2 ^ w) % 2 ^ N

/-- The byte at byte index `k` of a frame (00_scope R12). -/
def frameByte (s : BitStr) (k : Nat) : BitStr := slice s (8 * k) (8 * k + 8)

/-- The low `w` bits of `v`, bit 0 first. -/
def portBits : Nat → Nat → List Bool
  | 0, _ => []
  | w + 1, v => v.testBit 0 :: portBits w (v / 2)

/-- The number whose bits are listed, bit 0 first: the inverse of `portBits`. -/
def portVal : List Bool → Nat
  | [] => 0
  | b :: t => b.toNat + 2 * portVal t

/-- The low `n` bytes of `v`, bits 7:0 first. -/
def bytesOfNum : Nat → Nat → List Byte
  | 0, _ => []
  | n + 1, v => BitVec.ofNat 8 v :: bytesOfNum n (v / 256)

/-- The number whose bytes are listed, bits 7:0 first: the inverse of `bytesOfNum`. -/
def numOfBytes : List Byte → Nat
  | [] => 0
  | b :: t => b.toNat + 256 * numOfBytes t

end Sys2Proof
end

