-- ==== Sys2Proof/Machine/Operands.lean ====
section
/-!
DEFINITION. The constants of the CORE (00_scope R8) and the assembly of operands (30_encoding R62, R63, R67).
-/

namespace Sys2Proof.Machine

/-- `TAG_HI`, the first byte of a request frame. -/
def tagHi : Nat := 0x52

/-- `TAG_LO`, the second byte of a request frame. -/
def tagLo : Nat := 0x51

/-- `TAG`, first character in the high byte (20_memory R41). -/
def tag : Nat := 0x5251

/-- `REQ_BITS`, the length of a request frame. -/
def reqBits : Nat := 32

/-- `LEN_POS`, the first frame bit of the length field; the `HDR_BITS` bits before it are not decoded. -/
def lenPos : Nat := 24

/-- `MAX_ARRAY`, the largest bit array TO_SIGNED32 accepts. -/
def maxArray : Nat := 32

/-- The command number n that `cmd` stands for (30_encoding R67). -/
def commandNumber (p : Params) (cmd : Nat) : Int :=
  if p.cmdSigned then (cmd : Int) - 2 ^ p.cmdInW * (wordField cmd (p.cmdInW - 1) (p.cmdInW - 1) : Int) else cmd

/-- The command byte `cb = n mod 256` (30_encoding R67), for every integer n. -/
def commandByte (n : Int) : Nat := (n % 256).toNat

/-- The length field N of a response frame (30_encoding R62; most significant bit first, 20_memory R43). -/
def lengthField (p : Params) (frame : BitStr) : Nat := val (slice frame lenPos (lenPos + p.lenFieldW))

/-- The payload slice of a frame that declares `n` payload bytes, clamped at its end (30_encoding R63). -/
def payloadOf (p : Params) (frame : BitStr) (n : Nat) : BitStr := slice frame p.payPos (p.payPos + 8 * n)

end Sys2Proof.Machine
end

