-- ==== Sys2Proof/Syntax.lean ====
section
/-!
DEFINITION. The operations of the CORE with their operands (opcode_table.json), the transaction descriptor that carries
one on the input ports, and the names of what the interface refuses.
-/

namespace Sys2Proof

/-- One constructor per row of spec/opcode_table.json. The operands are those of the operation's own rules: a command
number as it stands on the `cmd` port (40_request_builder R80), a response frame (41_response_parser R100), a bit
array (42_status_interpreter R120). -/
inductive Instr where
  /-- `BUILD_REQUEST`, op 0b00. -/
  | buildRequest (cmd : Nat)
  /-- `PARSE_STATUS`, op 0b01. -/
  | parseStatus (frame : BitStr)
  /-- `TO_SIGNED32`, op 0b10. -/
  | toSigned32 (array : BitStr)
  /-- The reserved op 0b11. -/
  | reservedOp3
deriving DecidableEq, Repr

/-- The tuple `(op, cmd, in_len, in_bits)` of the input ports (30_encoding R55, 10_state R27). `cmd` and `inLen` are
port words, whose widths are parameters; `inBits` lists the driven positions of `in_bits` from position 0 on, and may
list more than `inLen` of them (10_state R30 says that those are not read). -/
structure Descriptor where
  op : BitVec 2
  cmd : Nat
  inLen : Nat
  inBits : BitStr
deriving DecidableEq, Repr

/-- Why an input is not a transaction. Each is a refusal at the interface, with no error code (10_state R32). Safe: the
model stops where the input cannot be presented at all. -/
inductive InterfaceError where
  /-- `in_len` is above `MAX_IN_BITS` (10_state R32). -/
  | lengthAboveMax
  /-- The bit string is longer than `MAX_IN_BITS` (10_state R32). -/
  | bitStringTooLong
  /-- The bit string that an operation reads is shorter than `in_len` says: the `in_bits` port has a bit at every
  position (10_state R27), so this is no port value. -/
  | bitsMissing
  /-- The command number does not fit the `cmd` port (10_state R27). -/
  | cmdDoesNotFit
  /-- A packed descriptor ends inside its fixed part. -/
  | packedTooShort
  /-- A packed descriptor has more bytes than the ports have positions. -/
  | packedTooLong
deriving DecidableEq, Repr

end Sys2Proof
end

