-- ==== Sys2Proof/WellFormed.lean ====
section
/-!
DEFINITION. Which operations, with their operands, the input ports can carry (10_state R27, R32).
-/

namespace Sys2Proof

/-- The operand of `i` fits its port: a command number below 2^CMD_IN_W, a bit string of at most `MAX_IN_BITS` bits. -/
def Instr.wf (p : Params) : Instr → Bool
  | .buildRequest cmd => decide (cmd < 2 ^ p.cmdInW)
  | .parseStatus frame => decide (frame.length ≤ p.maxInBits)
  | .toSigned32 array => decide (array.length ≤ p.maxInBits)
  | .reservedOp3 => true

end Sys2Proof
end

