-- ==== Sys2Proof/Decode.lean ====
section
/-!
DEFINITION. Decoding a descriptor (30_encoding R55 to R58) and its packed form, and the encoder.

A packed descriptor is the input ports side by side as one number, `op` in bits 1:0, then `cmd`, `in_len`, and the
positions of `in_bits` from position 0 on, filled with zeros to a whole byte; the byte of bits 7:0 stands first. DESIGN CHOICE (log 5): the spec gives the
ports (10_state R27) and the place of `op` (opcode_table.json), no packing.
-/

namespace Sys2Proof

/-- Whether the input ports can carry a descriptor, whatever its operation: `in_len` and the bit string within
`MAX_IN_BITS` (10_state R32), the command number within `CMD_IN_W` bits (10_state R27). What they cannot carry is no
transaction, so this comes before `op` is looked at (DEDUCED, log 7; for `cmd`, log 8). -/
def checkPorts (p : Params) (d : Descriptor) : Except InterfaceError Unit :=
  if p.maxInBits < d.inLen then .error .lengthAboveMax
  else if p.maxInBits < d.inBits.length then .error .bitStringTooLong
  else if 2 ^ p.cmdInW ≤ d.cmd then .error .cmdDoesNotFit
  else .ok ()

/-- The bit string an operation reads: `in_bits⟨0:in_len)` (30_encoding R68, R69). -/
def readBits (d : Descriptor) : Except InterfaceError BitStr :=
  if d.inBits.length < d.inLen then .error .bitsMissing else .ok (slice d.inBits 0 d.inLen)

/-- The operation table of 30_encoding R56: `op` alone selects, and only the ports of the Reads column are looked at
(R58). The reserved code reads nothing (R57). -/
def select (d : Descriptor) : Except InterfaceError Instr :=
  if d.op = 0b00#2 then .ok (.buildRequest d.cmd)
  else if d.op = 0b01#2 then (readBits d).map .parseStatus
  else if d.op = 0b10#2 then (readBits d).map .toSigned32
  else .ok .reservedOp3

/-- The operation of a descriptor that the ports can carry (10_state R32, 30_encoding R55 to R58). -/
def decode (p : Params) (d : Descriptor) : Except InterfaceError Instr :=
  match checkPorts p d with
  | .error e => .error e
  | .ok _ => select d

/-- How many bits of a packed descriptor stand before `in_bits`. -/
def fixedBits (p : Params) : Nat := 2 + p.cmdInW + p.lenW

/-- How many bytes hold a packed descriptor with `n` positions of `in_bits`. -/
def packedBytes (p : Params) (n : Nat) : Nat := (fixedBits p + n + 7) / 8

/-- The ports, from the number that a packed descriptor is, `n` positions of `in_bits` among them. -/
def portsOfNum (p : Params) (n v : Nat) : Descriptor where
  op := BitVec.ofNat 2 v
  cmd := v / 4 % 2 ^ p.cmdInW
  inLen := v / 4 / 2 ^ p.cmdInW % 2 ^ p.lenW
  inBits := portBits n (v / 4 / 2 ^ p.cmdInW / 2 ^ p.lenW)

/-- The ports, from a packed descriptor; too few or too many bytes are rejected by name. -/
def unpack (p : Params) (bytes : List Byte) : Except InterfaceError Descriptor :=
  if 8 * bytes.length < fixedBits p then .error .packedTooShort
  else if packedBytes p p.maxInBits < bytes.length then .error .packedTooLong
  else .ok (portsOfNum p (min (8 * bytes.length - fixedBits p) p.maxInBits) (numOfBytes bytes))

/-- The operation in a packed descriptor: total on any bytes. -/
def decodeBytes (p : Params) (bytes : List Byte) : Except InterfaceError Instr :=
  (unpack p bytes).bind (decode p)

/-! The encoder, from the same table. -/

/-- `op[1:0]` of 30_encoding R56. -/
def opOf : Instr → BitVec 2
  | .buildRequest _ => 0b00#2
  | .parseStatus _ => 0b01#2
  | .toSigned32 _ => 0b10#2
  | .reservedOp3 => 0b11#2

/-- The descriptor of an operation. Ports it does not read are zero or empty (their values do not matter, R58;
DESIGN CHOICE, log 5). -/
def toDescriptor : Instr → Descriptor
  | .buildRequest cmd => { op := 0b00#2, cmd := cmd, inLen := 0, inBits := [] }
  | .parseStatus frame => { op := 0b01#2, cmd := 0, inLen := frame.length, inBits := frame }
  | .toSigned32 array => { op := 0b10#2, cmd := 0, inLen := array.length, inBits := array }
  | .reservedOp3 => { op := 0b11#2, cmd := 0, inLen := 0, inBits := [] }

/-- The number that a packed descriptor is. -/
def numOfPorts (p : Params) (d : Descriptor) : Nat :=
  d.op.toNat + 4 * (d.cmd + 2 ^ p.cmdInW * (d.inLen + 2 ^ p.lenW * portVal d.inBits))

/-- The packed descriptor of the ports. -/
def pack (p : Params) (d : Descriptor) : List Byte := bytesOfNum (packedBytes p d.inBits.length) (numOfPorts p d)

/-- The packed descriptor of an operation. -/
def encode (p : Params) (i : Instr) : List Byte := pack p (toDescriptor i)

/-- The bytes of a packed descriptor given as its lowest `nbits` bits `w`, every bit above them zero: as many bytes as
its own `in_len` asks for. -/
def tableBytes (p : Params) (nbits w : Nat) : List Byte :=
  let v := w % 2 ^ nbits
  let inLen := v / 4 / 2 ^ p.cmdInW % 2 ^ p.lenW
  bytesOfNum (max ((nbits + 7) / 8) (packedBytes p (min inLen p.maxInBits))) v

/-- What the decoder of the default instance (00_scope R7) reads from the word `w` of an opcode-table row. -/
def decodeTableWord (nbits w : Nat) : Option Instr := (decodeBytes Params.default (tableBytes Params.default nbits w)).toOption

end Sys2Proof
end

