-- ==== Sys2Proof/Machine/State.lean ====
section
/-!
DEFINITION. What the model's machine holds: the instance parameters, the transaction in flight, and the output ports.

The CORE itself has no state (10_state R23); a transaction is a function of the parameters and the input ports. The host
interface's step has one argument, so this record carries both, and the ports the step drives. DESIGN CHOICE (log 1).
-/

namespace Sys2Proof.Machine

/-- The errors of 60_exceptions R141. OK is no error, and codes 6 and 7 name none. -/
inductive ErrCode where
  | cmdOversize
  | arrayOversize
  | hdrShort
  | payloadShort
  | illegalOp
deriving DecidableEq, Repr

/-- The output ports of 10_state R28. -/
inductive OutPort where
  | err
  | reqFrame
  | nField
  | outLen
  | outBits
  | shortRead
  | sval
deriving DecidableEq, Repr

/-- What the output ports carry (10_state R28). `none` says that the port carries no value (R29). `outBits` lists the
positions of `out_bits` that carry one (R31). -/
structure Outputs where
  err : Option (BitVec 3)
  reqFrame : Option Word32
  nField : Option (BitVec 16)
  outLen : Option Nat
  outBits : Option BitStr
  shortRead : Option Bool
  sval : Option Word32
deriving DecidableEq, Repr

/-- No output port carries a value (70_reset_and_hazards R166). -/
def Outputs.noValue : Outputs where
  err := none
  reqFrame := none
  nField := none
  outLen := none
  outBits := none
  shortRead := none
  sval := none

/-- The data of a successful transaction (10_state R33). -/
inductive TxData where
  /-- `BuildOut`. -/
  | build (reqFrame : Word32)
  /-- `ParseOut`; `nField` is none exactly when the frame is shorter than `PAY_POS` bits. -/
  | parse (nField : Option (BitVec 16)) (payload : BitStr) (shortRead : Bool)
  /-- `ConvOut`. -/
  | conv (sval : Word32)
deriving DecidableEq, Repr

/-- The outcome of one transaction (10_state R33). -/
inductive TxOutcome where
  | ok (data : TxData)
  | err (code : ErrCode)
deriving DecidableEq, Repr

/-- How the machine stops with a fault. No transaction faults. -/
inductive Fault where
  /-- A host read an output port that carries no value (10_state R29, R31; 92_eei_decisions D16). Raised by the port
  reads of Machine/Ops.lean. Safe: hardware may drive any value there, and no host may depend on it. -/
  | portCarriesNoValue (port : OutPort)
deriving DecidableEq, Repr

/-- Why the model takes no step. -/
inductive Refusal where
  /-- The operation has no meaning in the model. No arm of `exec` answers so. Safe. -/
  | notModelled (mnemonic : String)
  /-- The input is no transaction (10_state R32). Raised by `present` and `step`. Safe. -/
  | atInterface (reason : InterfaceError)
  /-- A second descriptor while a transaction is in flight (70_reset_and_hazards R174). Raised by `present`. Safe. -/
  | overlap
  /-- A script line names a result that no line before it has (30_encoding R73). Raised by Machine/Script.lean. Safe. -/
  | nameNotBound
  /-- A script line writes a leading `-` where `CMD_SIGNED` is false (30_encoding R73). Raised by Machine/Script.lean.
  Safe. -/
  | negativeCommand
  /-- A text is no line of a script, or no read of a result (30_encoding R73). Raised by Machine/Script.lean. Safe. -/
  | unreadableText
  /-- An action names an instance that does not exist. Raised by Machine/System.lean. Safe. -/
  | noSuchInstance
deriving DecidableEq, Repr

/-- One CORE instance. -/
structure State where
  /-- The parameters the instance was made with (00_scope R7); no step changes them (10_state R21). -/
  params : Params
  /-- The transaction in flight: at most one (70_reset_and_hazards R174). -/
  pending : Option Descriptor
  /-- The output ports, as the last transaction drove them. -/
  out : Outputs
deriving DecidableEq, Repr

/-- A new instance: ready for its first transaction, no output with a value (70_reset_and_hazards R166, R169). -/
def State.instantiate (p : Params) : State where
  params := p
  pending := none
  out := Outputs.noValue

/-- The default instance (00_scope R7) after reset. -/
def State.reset : State := State.instantiate Params.default

end Sys2Proof.Machine
end

