-- ==== Sys2Proof/Machine/Flags.lean ====
section
/-!
DEFINITION. The two status outputs (10_state R25): the error code on `err` (60_exceptions R141) and `short_read`.
-/

namespace Sys2Proof.Machine

/-- `err` on success. -/
def errOk : BitVec 3 := 0

/-- `err` on a raise: the codes of 60_exceptions R141. -/
def errBits : ErrCode → BitVec 3
  | .cmdOversize => 1
  | .arrayOversize => 2
  | .hdrShort => 3
  | .payloadShort => 4
  | .illegalOp => 5

/-- The error a code of `err` names, for a host that reads the port; OK and the reserved codes name none. -/
def errOfBits (b : BitVec 3) : Option ErrCode :=
  if b = 1 then some .cmdOversize
  else if b = 2 then some .arrayOversize
  else if b = 3 then some .hdrShort
  else if b = 4 then some .payloadShort
  else if b = 5 then some .illegalOp
  else none

/-- Whether a payload is shorter than the `n` bytes its frame declares (41_response_parser R103). -/
def payloadShort (payload : BitStr) (n : Nat) : Bool := decide (payload.length < 8 * n)

end Sys2Proof.Machine
end

