-- ==== Sys2Proof/Machine/Ops.lean ====
section
/-!
DEFINITION. The operations every transaction shares: presenting a descriptor, driving the output ports, ending with data
or with an error, reset, and the host's reads of the output ports.
-/

namespace Sys2Proof.Machine

/-- What the output ports carry after a transaction (10_state R28, R33): the ports of its operation and `err` on success,
`err` alone on an error (60_exceptions R146); every other port no value (R29). -/
def drive : TxOutcome → Outputs
  | .ok (.build f) => { Outputs.noValue with err := some errOk, reqFrame := some f }
  | .ok (.parse n payload short) =>
      { Outputs.noValue with
        err := some errOk, nField := n, outLen := some payload.length, outBits := some payload, shortRead := some short }
  | .ok (.conv v) => { Outputs.noValue with err := some errOk, sval := some v }
  | .err c => { Outputs.noValue with err := some (errBits c) }

/-- The transaction in flight ends: its outcome is on the output ports, all at once (20_memory R47), and the instance is
free for the next one. -/
def State.conclude (s : State) (o : TxOutcome) : State := { s with pending := none, out := drive o }

/-- `return` (00_scope R13): the transaction succeeds with `data`. -/
def deliver (data : TxData) (s : State) : Host.Outcome State Fault Refusal := .next (s.conclude (.ok data))

/-- `raise` (00_scope R13; 60_exceptions R146): the transaction ends with the error's code on `err` and no other output.
Nothing is saved, nothing is vectored to, and the next transaction runs as after a success: an error has no return
operation (60_exceptions R148, R151). -/
def raise (e : ErrCode) (s : State) : Host.Outcome State Fault Refusal := .next (s.conclude (.err e))

/-- The host presents a descriptor (10_state R24, R27). A second one while a transaction is in flight is refused
(70_reset_and_hazards R174), and so is an input that is no transaction (10_state R32). The output ports carry no value
until the transaction drives them, not the value of the one before (10_state R25, R29). -/
def present (d : Descriptor) (s : State) : Host.Outcome State Fault Refusal :=
  if s.pending.isSome then .refused .overlap
  else
    match decode s.params d with
    | .error e => .refused (.atInterface e)
    | .ok _ => .next { s with pending := some d, out := Outputs.noValue }

/-- Reset or power loss (70_reset_and_hazards R165 to R168): a transaction in flight has no outcome, no output carries a
value, the parameters stay. -/
def State.resetEvent (s : State) : State := State.instantiate s.params

/-- The host reads a port; reading one that carries no value is a fault (10_state R29; 92_eei_decisions D16). -/
def readPort {α : Type} (port : OutPort) : Option α → Host.Outcome α Fault Refusal
  | some v => .next v
  | none => .fault (.portCarriesNoValue port)

/-- Go on with a value, or stop as the first part stopped. -/
def andThen {α β : Type} (x : Host.Outcome α Fault Refusal) (f : α → Host.Outcome β Fault Refusal) :
    Host.Outcome β Fault Refusal :=
  match x with
  | .next v => f v
  | .fault r => .fault r
  | .refused r => .refused r

/-- What a host that obeys 70_reset_and_hazards R171 reads after a transaction with this `op`: `err` first, and the data
outputs of the operation (30_encoding R56) only when it is OK. Of a PARSE_STATUS it reads `n_field` as an option, since it
knows from its own `in_len` whether that port carries a value (10_state R28). -/
def hostRead (op : BitVec 2) (o : Outputs) : Host.Outcome TxOutcome Fault Refusal :=
  andThen (readPort .err o.err) fun e =>
    match errOfBits e with
    | some c => .next (.err c)
    | none =>
      if op = 0b00#2 then andThen (readPort .reqFrame o.reqFrame) fun f => .next (.ok (.build f))
      else if op = 0b01#2 then
        andThen (readPort .outLen o.outLen) fun n =>
        andThen (readPort .outBits o.outBits) fun b =>
        andThen (readPort .shortRead o.shortRead) fun sr => .next (.ok (.parse o.nField (slice b 0 n) sr))
      else andThen (readPort .sval o.sval) fun v => .next (.ok (.conv v))

end Sys2Proof.Machine
end

