-- ==== Sys2Proof/Machine/RequestBuilder.lean ====
section
/-!
DEFINITION. The Request Builder: BUILD_REQUEST (40_request_builder).
-/

namespace Sys2Proof.Machine

/-- `bitlen` (40_request_builder R81): how many binary digits write `n`. -/
def bitLen (n : Nat) : Nat := if n = 0 then 1 else Nat.log2 n + 1

/-- `T(n)` (40_request_builder R81): the length of the text, padded on the left to 8 digits. -/
def textLength (n : Nat) : Nat := max 8 (bitLen n)

/-- The command-number validation, kept literally (40_request_builder R81): a negative number is never rejected. -/
def cmdOversize : Int → Bool
  | .ofNat n => decide (32 < textLength n)
  | .negSucc _ => false

/-- The sum of frame bytes 0 to 2, not reduced (40_request_builder R82). -/
def checksumSum (cb : Nat) : Nat := tagHi + tagLo + cb

/-- The frame of a command byte (40_request_builder R82; R84 where `CKSUM_OR_CARRY` is true). -/
def requestFrame (p : Params) (cb : Nat) : Word32 :=
  let v24 := tag <<< 8 ||| cb
  let sum := checksumSum cb
  BitVec.ofNat 32 (v24 <<< 8 ||| (if p.cksumOrCarry then sum else sum % 256))

/-- BUILD_REQUEST (40_request_builder R83). -/
def execBuildRequest (cmd : Nat) (s : State) : Host.Outcome State Fault Refusal :=
  let n := commandNumber s.params cmd
  if cmdOversize n then raise .cmdOversize s
  else deliver (.build (requestFrame s.params (commandByte n))) s

/-- The 32-bit string of a request frame, first-transmitted bit first (30_encoding R60; 20_memory R42). -/
def frameString (f : Word32) : BitStr := bitsOf reqBits f.toNat

/-- The 4-byte buffer of a request frame, byte 0 first (30_encoding R60; 20_memory R41). -/
def frameBuffer (f : Word32) : List Byte :=
  [BitVec.ofNat 8 (wordField f.toNat 31 24), BitVec.ofNat 8 (wordField f.toNat 23 16),
    BitVec.ofNat 8 (wordField f.toNat 15 8), BitVec.ofNat 8 (wordField f.toNat 7 0)]

end Sys2Proof.Machine
end

