-- ==== Sys2Proof/Machine/ReservedOperation.lean ====
section
/-!
DEFINITION. The reserved operation code 0b11 (30_encoding R57).
-/

namespace Sys2Proof.Machine

/-- The reserved code raises E_ILLEGAL_OP before any operand is read (30_encoding R57; 60_exceptions R147). -/
def execReservedOp3 (s : State) : Host.Outcome State Fault Refusal := raise .illegalOp s

end Sys2Proof.Machine
end

