-- ==== Sys2Proof/Machine/ResponseParser.lean ====
section
/-!
DEFINITION. The Response Parser: PARSE_STATUS (41_response_parser).
-/

namespace Sys2Proof.Machine

/-- PARSE_STATUS (41_response_parser R106), in every layout (R114). The bits of positions 0 to 23, and in layout B of
positions 32 to 39, are not looked at (30_encoding R64). -/
def execParseStatus (frame : BitStr) (s : State) : Host.Outcome State Fault Refusal :=
  let p := s.params
  if frame.length < p.payPos then
    if p.strictLen then raise .hdrShort s else deliver (.parse none [] true) s
  else
    let n := lengthField p frame
    let payload := payloadOf p frame n
    if p.strictLen && payloadShort payload n then raise .payloadShort s
    else deliver (.parse (some (BitVec.ofNat 16 n)) payload (payloadShort payload n)) s

end Sys2Proof.Machine
end

