-- ==== Sys2Proof/Machine/StatusInterpreter.lean ====
section
/-!
DEFINITION. The Status Interpreter: TO_SIGNED32 (42_status_interpreter), in the two-stage form of its source.
-/

namespace Sys2Proof.Machine

/-- Stage 1 (42_status_interpreter R122, R123): the unsigned reading, less 2^w where position 0 is set. An empty array has
no position 0. -/
def signedByWidth (a : BitStr) : Int :=
  match a with
  | true :: _ => (val a : Int) - 2 ^ a.length
  | _ => val a

/-- Stage 2 (42_status_interpreter R124): the mask is the remainder mod 2^32, for a negative number too. -/
def normalise32 (sgn : Int) : Int :=
  let m := sgn % 2 ^ 32
  if m ≥ 2 ^ 31 then m - 2 ^ 32 else m

/-- TO_SIGNED32 (42_status_interpreter R125). -/
def execToSigned32 (a : BitStr) (s : State) : Host.Outcome State Fault Refusal :=
  if maxArray < a.length then raise .arrayOversize s
  else deliver (.conv (BitVec.ofInt 32 (normalise32 (signedByWidth a)))) s

end Sys2Proof.Machine
end

