-- ==== Sys2Proof/Machine/Dispatch.lean ====
section
/-! DEFINITION. Which meaning each operation has. -/

namespace Sys2Proof.Machine

def exec (i : Instr) (s : State) : Host.Outcome State Fault Refusal :=
  match i with
  | .buildRequest cmd => Sys2Proof.Machine.execBuildRequest cmd s
  | .parseStatus frame => Sys2Proof.Machine.execParseStatus frame s
  | .toSigned32 array => Sys2Proof.Machine.execToSigned32 array s
  | .reservedOp3 => Sys2Proof.Machine.execReservedOp3 s

end Sys2Proof.Machine
end

