-- ==== Sys2Proof/Machine/Step.lean ====
section
/-!
DEFINITION. One step: the transaction in flight, whole (20_memory R47; 70_reset_and_hazards R175).
-/

namespace Sys2Proof.Machine

/-- The transaction in flight runs and ends. With none in flight nothing happens, until the host presents one
(DESIGN CHOICE, log 3). A pending descriptor that no `present` would have let in is refused in the same words. -/
def step (s : State) : Host.Outcome State Fault Refusal :=
  match s.pending with
  | none => .next s
  | some d =>
    match decode s.params d with
    | .error e => .refused (.atInterface e)
    | .ok i => exec i s

/-- `s` with the descriptor packed in `w` on its input ports: the CORE fetches nothing (20_memory R53), so this stands for
the host that presents it (log 6). -/
def State.withFetchWord (s : State) (nbits w : Nat) : State :=
  match unpack s.params (tableBytes s.params nbits w) with
  | .ok d => { s with pending := some d }
  | .error _ => s

end Sys2Proof.Machine
end

