-- ==== Sys2Proof/Machine/Transaction.lean ====
section
/-!
DEFINITION. One transaction from the host's side: presented, run, and read, in the shape of 10_state R33.
-/

namespace Sys2Proof.Machine

/-- One transaction of an instance: its descriptor presented, and the step that ends it. -/
def issue (d : Descriptor) (s : State) : Host.Outcome State Fault Refusal := andThen (present d s) step

/-- The outcome of a descriptor as a function of the parameters and the input ports alone (10_state R23, R33): what the
host reads from a new instance after issuing it. -/
def transact (p : Params) (d : Descriptor) : Host.Outcome TxOutcome Fault Refusal :=
  andThen (issue d (State.instantiate p)) fun s => hostRead d.op s.out

end Sys2Proof.Machine
end

