-- ==== Sys2Proof/Machine/Script.lean ====
section
/-!
DEFINITION. The host script (30_encoding R73) and its pseudo-operation STATUS32 (R74): how a line is written, which
descriptors it stands for, and what its name is bound to. The host does all of this; no operation of the CORE does.

Names, white space and the range of an integer are DESIGN CHOICE (log 14), and so is how literals, integers and slice bounds are
written beyond the examples of R73 (log 18).
-/

namespace Sys2Proof.Machine

/-! ### What a line says -/

/-- One part of a `<bits>` operand. -/
inductive BitsAtom where
  /-- `b"..."`, `h"..."` and `[]`. -/
  | literal (bits : BitStr)
  /-- `<name>.payload`. -/
  | payload (name : List Char)
  /-- `<name>.frame`. -/
  | frame (name : List Char)
  /-- `<name>.frame[a:b)`. -/
  | frameSlice (name : List Char) (a b : Nat)
deriving DecidableEq, Repr

/-- An `<int>`: whether a `-` leads it, and the number after it. `-0` is written with a `-` that 0 does not have. -/
structure ScriptInt where
  minus : Bool
  magnitude : Nat
deriving DecidableEq, Repr

/-- The integer that an `<int>` stands for. -/
def ScriptInt.value (n : ScriptInt) : Int := if n.minus then -(n.magnitude : Int) else n.magnitude

/-- What stands right of the `=`. A `<bits>` operand is the list of the parts that `++` joins. -/
inductive ScriptOp where
  | buildRequest (n : ScriptInt)
  | parseStatus (bits : List BitsAtom)
  | toSigned32 (bits : List BitsAtom)
  | status32 (bits : List BitsAtom)
deriving DecidableEq, Repr

/-- `<name> = <MNEMONIC> <operand>`. -/
structure ScriptLine where
  name : List Char
  op : ScriptOp
deriving DecidableEq, Repr

/-! ### How a line is written -/

/-- The digit a character stands for, 0 to 15. -/
def digitOf (c : Char) : Option Nat :=
  if '0' ≤ c ∧ c ≤ '9' then some (c.toNat - 48)
  else if 'A' ≤ c ∧ c ≤ 'F' then some (c.toNat - 55)
  else if 'a' ≤ c ∧ c ≤ 'f' then some (c.toNat - 87)
  else none

/-- A digit below `base`. -/
def digitBelow (base : Nat) (c : Char) : Option Nat := (digitOf c).bind fun d => if d < base then some d else none

/-- A number in base `base`, most significant digit first, read on from `acc`. -/
def readDigits (base : Nat) : List Char → Nat → Option Nat
  | [], acc => some acc
  | c :: t, acc => (digitBelow base c).bind fun d => readDigits base t (acc * base + d)

/-- A decimal or `0x` hex number, at least one digit (DESIGN CHOICE, log 14), no `_` and no `0X` (DESIGN CHOICE, log 18). -/
def readNat : List Char → Option Nat
  | [] => none
  | ['0', 'x'] => none
  | '0' :: 'x' :: t => readDigits 16 t 0
  | t => readDigits 10 t 0

/-- `<int>`: a number, perhaps with a leading `-`. -/
def readInt : List Char → Option ScriptInt
  | '-' :: t => (readNat t).map (⟨true, ·⟩)
  | t => (readNat t).map (⟨false, ·⟩)

/-- Binary digits; `_` carries no bits. That there may be no digit at all, and that `_` may stand anywhere, alone too, is
DESIGN CHOICE (log 18). -/
def readBinary : List Char → Option BitStr
  | [] => some []
  | '_' :: t => readBinary t
  | c :: t => (digitBelow 2 c).bind fun d => (readBinary t).map (bitsOf 1 d ++ ·)

/-- Hex digits, 4 bits each, most significant bit first. That there may be no digit at all, and no `_`, is DESIGN CHOICE
(log 18). -/
def readHex : List Char → Option BitStr
  | [] => some []
  | c :: t => (digitBelow 16 c).bind fun d => (readHex t).map (bitsOf 4 d ++ ·)

/-- White space removed at both ends. -/
def trim (cs : List Char) : List Char :=
  ((cs.dropWhile (· == ' ')).reverse.dropWhile (· == ' ')).reverse

/-- The parts of a text that `++` separates. -/
def splitPlus : List Char → List (List Char)
  | [] => [[]]
  | '+' :: '+' :: t => [] :: splitPlus t
  | c :: t =>
    match splitPlus t with
    | [] => [[c]]
    | h :: r => (c :: h) :: r

/-- The text before the closing quotation mark of a literal, which must be the last character; the text may be empty
(DESIGN CHOICE, log 18). -/
def closeQuote (cs : List Char) : Option (List Char) :=
  match cs.reverse with
  | c :: t => if c.toNat = 34 ∧ t.all (fun x => x.toNat != 34) then some t.reverse else none
  | [] => none

/-- A name: letters, digits and `_`, at least one. -/
def readName (cs : List Char) : Option (List Char) :=
  if cs ≠ [] ∧ cs.all (fun c => c.isAlphanum || c == '_') then some cs else none

/-- The bounds of `[a:b)`, from after the `[`: decimal digits, at least one each (DESIGN CHOICE, log 18). -/
def readBounds (cs : List Char) : Option (Nat × Nat) :=
  match cs.reverse with
  | ')' :: t =>
    let inner := t.reverse
    (readDigits 10 (inner.takeWhile (· != ':')) 0).bind fun a =>
      match inner.dropWhile (· != ':') with
      | _ :: b => if b = [] ∨ inner.takeWhile (· != ':') = [] then none else (readDigits 10 b 0).map fun b => (a, b)
      | [] => none
  | _ => none

/-- One part of a `<bits>` operand. -/
def readAtom (cs : List Char) : Option BitsAtom :=
  match cs with
  | ['[', ']'] => some (.literal [])
  | k :: q :: t =>
    if q.toNat = 34 then
      if k = 'b' then ((closeQuote t).bind readBinary).map .literal
      else if k = 'h' then ((closeQuote t).bind readHex).map .literal
      else none
    else
      (readName (cs.takeWhile (· != '.'))).bind fun name =>
        match cs.dropWhile (· != '.') with
        | ['.', 'p', 'a', 'y', 'l', 'o', 'a', 'd'] => some (.payload name)
        | ['.', 'f', 'r', 'a', 'm', 'e'] => some (.frame name)
        | '.' :: 'f' :: 'r' :: 'a' :: 'm' :: 'e' :: '[' :: r => (readBounds r).map fun (a, b) => .frameSlice name a b
        | _ => none
  | _ => none

/-- A `<bits>` operand; spaces around a part are dropped (DESIGN CHOICE, log 18). -/
def readBitsOperand (cs : List Char) : Option (List BitsAtom) := (splitPlus cs).mapM fun part => readAtom (trim part)

/-- The operation of a line. -/
def readScriptOp (mnemonic operand : List Char) : Option ScriptOp :=
  if mnemonic = ['B', 'U', 'I', 'L', 'D', '_', 'R', 'E', 'Q', 'U', 'E', 'S', 'T'] then
    (readInt operand).map .buildRequest
  else if mnemonic = ['P', 'A', 'R', 'S', 'E', '_', 'S', 'T', 'A', 'T', 'U', 'S'] then
    (readBitsOperand operand).map .parseStatus
  else if mnemonic = ['T', 'O', '_', 'S', 'I', 'G', 'N', 'E', 'D', '3', '2'] then
    (readBitsOperand operand).map .toSigned32
  else if mnemonic = ['S', 'T', 'A', 'T', 'U', 'S', '3', '2'] then
    (readBitsOperand operand).map .status32
  else none

/-- One line of a script, its comment dropped; the first `;` begins it, wherever it stands (DESIGN CHOICE, log 18). -/
def readLine (cs : List Char) : Option ScriptLine :=
  let text := cs.takeWhile (· != ';')
  let right := trim ((text.dropWhile (· != '=')).drop 1)
  (readName (trim (text.takeWhile (· != '=')))).bind fun name =>
    (readScriptOp (right.takeWhile (· != ' ')) (trim (right.dropWhile (· != ' ')))).map fun op => { name := name, op := op }

/-! ### What a line does -/

/-- The results of the lines so far, the latest first: a name and the output ports after its transaction. -/
abbrev ScriptEnv := List (List Char × Outputs)

/-- The result a name is bound to. -/
def resultNamed (env : ScriptEnv) (name : List Char) : Host.Outcome Outputs Fault Refusal :=
  match env.find? (fun e => e.1 == name) with
  | some e => .next e.2
  | none => .refused .nameNotBound

/-- The DIN status array on the output ports: `out_bits⟨0:out_len)` (10_state R33). -/
def readPayload (o : Outputs) : Host.Outcome BitStr Fault Refusal :=
  andThen (readPort .outLen o.outLen) fun n => andThen (readPort .outBits o.outBits) fun b => .next (slice b 0 n)

/-- The bits of one part of an operand. -/
def atomBits (env : ScriptEnv) : BitsAtom → Host.Outcome BitStr Fault Refusal
  | .literal bits => .next bits
  | .payload name => andThen (resultNamed env name) readPayload
  | .frame name => andThen (resultNamed env name) fun o =>
      andThen (readPort .reqFrame o.reqFrame) fun f => .next (frameString f)
  | .frameSlice name a b => andThen (resultNamed env name) fun o =>
      andThen (readPort .reqFrame o.reqFrame) fun f => .next (slice (frameString f) a b)

/-- The bits of an operand: its parts, concatenated. -/
def operandBits (env : ScriptEnv) : List BitsAtom → Host.Outcome BitStr Fault Refusal
  | [] => .next []
  | a :: t => andThen (atomBits env a) fun x => andThen (operandBits env t) fun y => .next (x ++ y)

/-- The `cmd` port word of an integer, in two's complement when it is negative. A leading `-`, before a 0 too, is allowed
only where `CMD_SIGNED` is true. -/
def cmdWord (p : Params) (n : ScriptInt) : Host.Outcome Nat Fault Refusal :=
  if n.minus && !p.cmdSigned then .refused .negativeCommand
  else if -(2 ^ (p.cmdInW - 1) : Int) ≤ n.value ∧ n.value < 2 ^ p.cmdInW then .next (n.value % 2 ^ p.cmdInW).toNat
  else .refused (.atInterface .cmdDoesNotFit)

/-- The expansion of STATUS32 (30_encoding R74): a second transaction on the array of the first, unless the first ended in
an error. `short_read` is not consulted. -/
def status32 (bits : BitStr) (s : State) : Host.Outcome State Fault Refusal :=
  andThen (issue (toDescriptor (.parseStatus bits)) s) fun s1 =>
    andThen (readPort .err s1.out.err) fun e =>
      if e = errOk then andThen (readPayload s1.out) fun a => issue (toDescriptor (.toSigned32 a)) s1
      else .next s1

/-- The transactions of a line's operation. -/
def runScriptOp (env : ScriptEnv) (op : ScriptOp) (s : State) : Host.Outcome State Fault Refusal :=
  match op with
  | .buildRequest n => andThen (cmdWord s.params n) fun cmd => issue (toDescriptor (.buildRequest cmd)) s
  | .parseStatus b => andThen (operandBits env b) fun x => issue (toDescriptor (.parseStatus x)) s
  | .toSigned32 b => andThen (operandBits env b) fun x => issue (toDescriptor (.toSigned32 x)) s
  | .status32 b => andThen (operandBits env b) fun x => status32 x s

/-- One line: its transactions, and its name bound to the output ports they leave. -/
def runLine (line : ScriptLine) (es : ScriptEnv × State) : Host.Outcome (ScriptEnv × State) Fault Refusal :=
  andThen (runScriptOp es.1 line.op es.2) fun s => .next ((line.name, s.out) :: es.1, s)

/-- A script, line by line; the first fault or refusal ends it. -/
def runScript : List ScriptLine → ScriptEnv × State → Host.Outcome (ScriptEnv × State) Fault Refusal
  | [], es => .next es
  | line :: t, es => andThen (runLine line es) (runScript t)

/-- One line of a script from its text; a text that is no line is refused. -/
def runText (cs : List Char) (es : ScriptEnv × State) : Host.Outcome (ScriptEnv × State) Fault Refusal :=
  match readLine cs with
  | some line => runLine line es
  | none => .refused .unreadableText

/-! ### Reading a result -/

/-- What of a result a script can read (30_encoding R73). -/
inductive ResultPort where
  | err
  | reqFrame
  | nField
  | payload
  | shortRead
  | sval
deriving DecidableEq, Repr

/-- How it is written after `<name>.`. -/
def resultText : ResultPort → List Char
  | .err => ['e', 'r', 'r']
  | .reqFrame => ['r', 'e', 'q', '_', 'f', 'r', 'a', 'm', 'e']
  | .nField => ['n', '_', 'f', 'i', 'e', 'l', 'd']
  | .payload => ['p', 'a', 'y', 'l', 'o', 'a', 'd']
  | .shortRead => ['s', 'h', 'o', 'r', 't', '_', 'r', 'e', 'a', 'd']
  | .sval => ['s', 'v', 'a', 'l']

/-- The name and the port of a read such as `<name>.sval`. -/
def readResultText (cs : List Char) : Option (List Char × ResultPort) :=
  let text := trim cs
  (readName (text.takeWhile (· != '.'))).bind fun name =>
    ([.err, .reqFrame, .nField, .payload, .shortRead, .sval].find? fun k =>
      text.dropWhile (· != '.') == '.' :: resultText k).map fun k => (name, k)

/-- What a result read gives: a number, or a bit string. -/
inductive PortValue where
  | word (n : Nat)
  | bits (b : BitStr)
deriving DecidableEq, Repr

/-- `<name>.err`, `.req_frame`, `.n_field`, `.payload`, `.short_read` and `.sval` (30_encoding R73); a port that carries no
value faults. -/
def readResult (env : ScriptEnv) (name : List Char) (port : ResultPort) : Host.Outcome PortValue Fault Refusal :=
  andThen (resultNamed env name) fun o =>
    match port with
    | .err => andThen (readPort .err o.err) fun v => .next (.word v.toNat)
    | .reqFrame => andThen (readPort .reqFrame o.reqFrame) fun v => .next (.word v.toNat)
    | .nField => andThen (readPort .nField o.nField) fun v => .next (.word v.toNat)
    | .payload => andThen (readPayload o) fun b => .next (.bits b)
    | .shortRead => andThen (readPort .shortRead o.shortRead) fun v => .next (.word v.toNat)
    | .sval => andThen (readPort .sval o.sval) fun v => .next (.word v.toNat)

/-- A result read from its text; a text that is no read of a result is refused. -/
def readText (env : ScriptEnv) (cs : List Char) : Host.Outcome PortValue Fault Refusal :=
  match readResultText cs with
  | some r => readResult env r.1 r.2
  | none => .refused .unreadableText

end Sys2Proof.Machine
end

