-- ==== Sys2Proof/Machine/System.lean ====
section
/-!
DEFINITION. Several instances side by side (20_memory R51; 60_exceptions R158): a list of instances that share nothing.
What order their hosts act in is open; each action names its instance.
-/

namespace Sys2Proof.Machine

/-- What can happen to one instance. -/
inductive Action where
  /-- Its host presents a descriptor. -/
  | present (d : Descriptor)
  /-- Its transaction in flight runs. -/
  | run
  /-- It is reset. -/
  | reset
deriving DecidableEq, Repr

/-- One action of one instance. -/
def act (a : Action) (s : State) : Host.Outcome State Fault Refusal :=
  match a with
  | .present d => present d s
  | .run => step s
  | .reset => .next s.resetEvent

/-- One action of instance `k` of several. -/
def actAt (k : Nat) (a : Action) (sys : List State) : Host.Outcome (List State) Fault Refusal :=
  match sys[k]? with
  | none => .refused .noSuchInstance
  | some s => andThen (act a s) fun s' => .next (sys.set k s')

end Sys2Proof.Machine
end

