-- ==== Sys2Proof/Safety.lean ====
section
/-!
DEFINITION. What a sound instance looks like, in the terms claims use: legal parameters, and output ports that carry
either nothing or the whole outcome of one transaction.
-/

namespace Sys2Proof.Machine

/-- What an answer holds, when it is a next state. -/
def next? {α : Type} : Host.Outcome α Fault Refusal → Option α
  | .next v => some v
  | _ => none

/-- The data ports carry no value (60_exceptions R146). -/
abbrev Outputs.NoData (o : Outputs) : Prop :=
  o.reqFrame = none ∧ o.nField = none ∧ o.outLen = none ∧ o.outBits = none ∧ o.shortRead = none ∧ o.sval = none

/-- A BUILD_REQUEST outcome: a frame with the message-id tag (40_request_builder R87, R91). -/
abbrev Outputs.IsBuild (o : Outputs) : Prop :=
  o.err = some errOk ∧ (∃ f, o.reqFrame = some f ∧ f.extractLsb' 16 16 = 0x5251#16) ∧
    o.nField = none ∧ o.outLen = none ∧ o.outBits = none ∧ o.shortRead = none ∧ o.sval = none

/-- A PARSE_STATUS outcome (10_state R28, R31, R33; 41_response_parser R101, R103, R107, R115): `out_len` is the length
of the array and fits its port; without `n_field` the array is empty and short; with it, N fits the length field, the
array has at most 8N bits, and `short_read` says whether it has fewer. A strict instance never answers short. -/
abbrev Outputs.IsParse (p : Params) (o : Outputs) : Prop :=
  o.err = some errOk ∧ o.reqFrame = none ∧ o.sval = none ∧
    ∃ b short, o.outBits = some b ∧ o.outLen = some b.length ∧ o.shortRead = some short ∧
      b.length ≤ p.maxInBits - p.payPos ∧ (p.strictLen = true → short = false) ∧
      match o.nField with
      | none => b = [] ∧ short = true
      | some n => n.toNat < 2 ^ p.lenFieldW ∧ b.length ≤ 8 * n.toNat ∧ (short = true ↔ b.length < 8 * n.toNat)

/-- A TO_SIGNED32 outcome. -/
abbrev Outputs.IsConv (o : Outputs) : Prop :=
  o.err = some errOk ∧ o.reqFrame = none ∧ o.nField = none ∧ o.outLen = none ∧ o.outBits = none ∧ o.shortRead = none ∧
    o.sval.isSome

/-- An error outcome: a code from 1 to 5 and no data (60_exceptions R141, R146). The short-input errors are raised by a
strict instance only (R144, R145). -/
abbrev Outputs.IsError (p : Params) (o : Outputs) : Prop :=
  (∃ c, o.err = some (errBits c) ∧ ((c = .hdrShort ∨ c = .payloadShort) → p.strictLen = true)) ∧ o.NoData

/-- The output ports carry nothing, or one outcome whole (20_memory R47). -/
def Outputs.Coherent (p : Params) (o : Outputs) : Prop :=
  o = Outputs.noValue ∨ o.IsBuild ∨ o.IsParse p ∨ o.IsConv ∨ o.IsError p

/-- The invariant of an instance: legal parameters (00_scope R7) and coherent output ports. -/
def State.Inv (s : State) : Prop := s.params.Legal ∧ s.out.Coherent s.params

end Sys2Proof.Machine
end

