-- ==== Sys2Proof/Certificates/Slice0/Obligations.lean ====
section
/-!
DEFINITION. The statements of this row. An outcome is written out port by port: `Outputs.noValue with …` says which
ports carry a value and that no other one does.
-/

open Sys2Proof Sys2Proof.Machine

/-! ### Primitives, decoding and encoding -/

/-- 00_scope R11: `s⟨a:b)` is the positions a ≤ i < min(b, len(s)) in order, `val` is the weighted sum with position 0
most significant, `bits_w(v)` has w bits and reads back as v mod 2^w. -/
def Obligations.BitStringPrimitives : Prop :=
  (∀ (s : BitStr) (a b : Nat), (slice s a b).length = min b s.length - a ∧
    ∀ i, a + i < min b s.length → (slice s a b)[i]? = s[a + i]?) ∧
  (∀ s : BitStr, val s = ∑ i : Fin s.length, (s[i]).toNat * 2 ^ (s.length - 1 - i)) ∧
  (∀ w v : Nat, (bitsOf w v).length = w ∧ val (bitsOf w v) = v % 2 ^ w)

/-- 30_encoding R56, R57, R68, R69: of a descriptor that the ports can carry (10_state R27, R32), `op` selects the
operation, and its operand is the port word or `in_bits⟨0:in_len)`; the reserved code decodes whatever the ports carry. -/
def Obligations.OpSelectsOperationAndOperand : Prop :=
  ∀ (p : Params) (cmd inLen : Nat) (bits : BitStr),
    cmd < 2 ^ p.cmdInW → inLen ≤ p.maxInBits → bits.length ≤ p.maxInBits →
    decode p ⟨0b00#2, cmd, inLen, bits⟩ = .ok (.buildRequest cmd) ∧
    (inLen ≤ bits.length →
      decode p ⟨0b01#2, cmd, inLen, bits⟩ = .ok (.parseStatus (bits.take inLen)) ∧
      decode p ⟨0b10#2, cmd, inLen, bits⟩ = .ok (.toSigned32 (bits.take inLen))) ∧
    decode p ⟨0b11#2, cmd, inLen, bits⟩ = .ok .reservedOp3

/-- The decoder reads back every operation the encoder writes, with every operand the ports can carry, in every legal
instance. The packing itself is the model's choice (log 5). -/
def Obligations.DecodeOfEncodeIsIdentity : Prop :=
  ∀ (p : Params) (i : Instr), p.Legal → i.wf p = true → decodeBytes p (encode p i) = .ok i

/-- A few words of the opcode table, with `op` in bits 1:0, decode to their operations; the operand words are the
model's packing (log 5). -/
def Obligations.TableWordsDecode : Prop :=
  decodeTableWord 8 0b00 = some (.buildRequest 0) ∧
  decodeTableWord 8 0b01 = some (.parseStatus []) ∧
  decodeTableWord 8 0b10 = some (.toSigned32 []) ∧
  decodeTableWord 8 0b11 = some .reservedOp3 ∧
  decodeTableWord 16 (4 * 0x1F) = some (.buildRequest 0x1F) ∧
  decodeTableWord 96 (0b1011 * 2 ^ 86 + 4 * 2 ^ 66 + 0b10) = some (.toSigned32 [true, true, false, true])

/-- Two descriptors that the ports can carry (10_state R27, R32), with the same `op` and the same bits on the ports it
reads, give the same step: the other ports, and the positions of `in_bits` at or above `in_len`, do not matter
(30_encoding R58, 10_state R30). -/
def Obligations.UnreadPortsDoNotMatter : Prop :=
  ∀ (s : State) (d e : Descriptor),
    d.cmd < 2 ^ s.params.cmdInW → d.inLen ≤ s.params.maxInBits → d.inBits.length ≤ s.params.maxInBits →
    e.cmd < 2 ^ s.params.cmdInW → e.inLen ≤ s.params.maxInBits → e.inBits.length ≤ s.params.maxInBits →
    d.op = e.op → (d.op = 0b00#2 → d.cmd = e.cmd) →
    (d.op = 0b01#2 ∨ d.op = 0b10#2 → d.inLen = e.inLen ∧ (∀ i < d.inLen, d.inBits[i]? = e.inBits[i]?) ∧
      d.inLen ≤ d.inBits.length ∧ d.inLen ≤ e.inBits.length) →
    ∃ t, step { s with pending := some d } = .next t ∧ step { s with pending := some e } = .next t

/-! ### The step and the interface -/

/-- When the bytes of a packed descriptor decode to an operation, the descriptor they carry being in flight, the step is
that operation's meaning; the operation is well formed. -/
def Obligations.StepRunsDecodedOperation : Prop :=
  ∀ (s : State) (bytes : List Byte) (d : Descriptor) (i : Instr),
    unpack s.params bytes = .ok d → decodeBytes s.params bytes = .ok i → s.pending = some d →
      step s = exec i s ∧ i.wf s.params = true

/-- With no transaction in flight a step changes nothing. The model's choice (log 3). -/
def Obligations.IdleStepChangesNothing : Prop :=
  ∀ s : State, s.pending = none → step s = .next s

/-- 10_state R32: an `in_len` above `MAX_IN_BITS`, and a bit string longer than that, are refused at the interface whatever
the operation, with no error code; no transaction occurs, so a step that finds one refuses it too. That it holds for the
operations that read neither is the model's reading (log 7). -/
def Obligations.OverlongInputRefused : Prop :=
  ∀ (s : State) (d : Descriptor),
    (s.params.maxInBits < d.inLen →
      (s.pending = none → present d s = .refused (.atInterface .lengthAboveMax)) ∧
      step { s with pending := some d } = .refused (.atInterface .lengthAboveMax)) ∧
    (d.inLen ≤ s.params.maxInBits → s.params.maxInBits < d.inBits.length →
      (s.pending = none → present d s = .refused (.atInterface .bitStringTooLong)) ∧
      step { s with pending := some d } = .refused (.atInterface .bitStringTooLong))

/-- 70_reset_and_hazards R174: a second descriptor while one is in flight is refused. -/
def Obligations.OverlapRefused : Prop :=
  ∀ (s : State) (d e : Descriptor), s.pending = some e → present d s = .refused .overlap

/-- 70_reset_and_hazards R175, 20_memory R47: every presented transaction ends, in one step, with its error code driven,
the instance free and its parameters as they were. -/
def Obligations.PresentedTransactionEnds : Prop :=
  ∀ (s t : State) (d : Descriptor), present d s = .next t →
    ∃ u, step t = .next u ∧ u.pending = none ∧ u.params = s.params ∧ ∃ c, u.out.err = some c ∧ c.toNat ≤ 5

/-- 10_state R23, 20_memory R48: no transaction can observe an earlier one. Two instances with the same parameters,
whatever their output ports carry, answer the same descriptor with the same state. -/
def Obligations.TransactionsAreStateless : Prop :=
  ∀ (s t s' t' : State) (d : Descriptor), s.params = t.params → present d s = .next s' → present d t = .next t' →
    ∃ u, step s' = .next u ∧ step t' = .next u

/-- 10_state R33, R23, R48: what a host reads from an instance with nothing in flight, whatever it did before, is the
one outcome that the parameters and the input ports determine. -/
def Obligations.OutcomeIsFunctionOfParametersAndInputs : Prop :=
  ∀ (s : State) (d : Descriptor), s.pending = none →
    andThen (issue d s) (fun u => hostRead d.op u.out) = transact s.params d

/-- 10_state R29, 70_reset_and_hazards R171: a host that reads `err` first, and the operation's data only when it is OK,
reads no port without a value, and learns the whole outcome. -/
def Obligations.CheckedHostReadsWholeOutcome : Prop :=
  ∀ (s t u : State) (d : Descriptor), present d s = .next t → step t = .next u →
    ∃ o, hostRead d.op u.out = .next o ∧ u.out = drive o

/-- No step faults. -/
def Obligations.StepNeverFaults : Prop :=
  ∀ (s : State) (r : Fault), step s ≠ .fault r

/-- 70_reset_and_hazards R165 to R168: reset leaves the parameters, drops the transaction in flight, and leaves no output
with a value. -/
def Obligations.ResetKeepsOnlyParameters : Prop :=
  (∀ s : State, s.resetEvent.params = s.params ∧ s.resetEvent.pending = none ∧ s.resetEvent.out = Outputs.noValue) ∧
  State.reset.out = Outputs.noValue ∧ State.reset.pending = none

/-! ### BUILD_REQUEST -/

/-- 30_encoding R67: the command number is the unsigned or the two's-complement reading of the port, and in both cases
the command byte is `cmd[7:0]`. -/
def Obligations.CommandNumberReadsPort : Prop :=
  ∀ (p : Params) (cmd : Nat), p.Legal → cmd < 2 ^ p.cmdInW →
    (p.cmdSigned = false → commandNumber p cmd = cmd) ∧
    (p.cmdSigned = true → commandNumber p cmd = (BitVec.ofNat p.cmdInW cmd).toInt) ∧
    commandByte (commandNumber p cmd) = cmd % 256 ∧
    ((commandByte (commandNumber p cmd) : Nat) : Int) = commandNumber p cmd % 256

/-- 30_encoding R59 with the masked checksum: every accepted command number n gives the frame 'R', 'Q', n mod 256,
(0x52 + 0x51 + n mod 256) mod 256, and nothing else changes. -/
def Obligations.BuildRequestFrame : Prop :=
  ∀ (s : State) (cmd : Nat), s.params.cksumOrCarry = false → commandNumber s.params cmd < 2 ^ 32 →
    exec (.buildRequest cmd) s = .next
      { params := s.params, pending := none,
        out := { Outputs.noValue with
          err := some 0
          reqFrame := some (0x52#8 ++ 0x51#8 ++ BitVec.ofInt 8 (commandNumber s.params cmd) ++
            (0x52#8 + 0x51#8 + BitVec.ofInt 8 (commandNumber s.params cmd))) } }

/-- 40_request_builder R84: with the literal packing byte 3 is the same, byte 2 is `cb | sum[8]`, and it differs from cb
for the even cb from 0x5E to 0xFE only. -/
def Obligations.BuildRequestLiteralPacking : Prop :=
  ∀ (s : State) (cmd : Nat), s.params.cksumOrCarry = true → commandNumber s.params cmd < 2 ^ 32 →
    let cb := commandByte (commandNumber s.params cmd)
    let sum := 0x52 + 0x51 + cb
    ∃ f : Word32,
      exec (.buildRequest cmd) s = .next
        { params := s.params, pending := none,
          out := { Outputs.noValue with err := some 0, reqFrame := some f } } ∧
      sum < 2 ^ 9 ∧ f.toNat = ((0x5251 <<< 8 ||| cb) <<< 8) ||| sum ∧
      f.extractLsb' 0 8 = BitVec.ofNat 8 sum ∧
      f.getLsbD 8 = (cb.testBit 0 || sum.testBit 8) ∧
      f.extractLsb' 9 23 = BitVec.ofNat 23 ((0x5251 <<< 8 ||| cb) >>> 1) ∧
      (f.extractLsb' 8 8 ≠ BitVec.ofNat 8 cb ↔ 256 ≤ sum ∧ cb % 2 = 0) ∧
      (256 ≤ sum ∧ cb % 2 = 0 ↔ 0x5E ≤ cb ∧ cb ≤ 0xFE ∧ cb % 2 = 0)

/-- 40_request_builder R81, 60_exceptions R142: E_CMD_OVERSIZE is raised exactly when n ≥ 0 and the binary text of n,
padded to 8 digits, is longer than 32, that is exactly when n ≥ 2^32; never for a negative n, which an unsigned port does
not have, and never when the port has at most 32 bits. -/
def Obligations.CmdOversizeExactlyAbove32Bits : Prop :=
  ∀ (s : State) (cmd : Nat),
    let n := commandNumber s.params cmd
    let raised := exec (.buildRequest cmd) s = .next
      { params := s.params, pending := none, out := { Outputs.noValue with err := some 1 } }
    (raised ↔ 0 ≤ n ∧ 32 < max 8 (max 1 (Nat.digits 2 n.toNat).length)) ∧
    (raised ↔ 2 ^ 32 ≤ n) ∧
    (s.params.cmdSigned = false → 0 ≤ n) ∧
    (s.params.cmdInW ≤ 32 → cmd < 2 ^ s.params.cmdInW → ¬ raised)

/-- 40_request_builder R90: two accepted command numbers with the same low 8 bits give the same frame. -/
def Obligations.FrameDependsOnLowByteOnly : Prop :=
  ∀ (s : State) (c d : Nat), commandNumber s.params c < 2 ^ 32 → commandNumber s.params d < 2 ^ 32 →
    commandNumber s.params c % 256 = commandNumber s.params d % 256 →
    ∃ t, exec (.buildRequest c) s = .next t ∧ exec (.buildRequest d) s = .next t ∧ t.out.reqFrame.isSome

/-- 40_request_builder R89: a receiver that adds bytes 0 to 2 finds byte 3 in every masked frame; where the literal packing
changed byte 2 it finds (0xA3 + cb + 1) mod 256 instead, which differs. -/
def Obligations.ReceiverRecomputesChecksum : Prop :=
  ∀ (s t : State) (cmd : Nat) (f : Word32), exec (.buildRequest cmd) s = .next t → t.out.reqFrame = some f →
    let cb := commandByte (commandNumber s.params cmd)
    let recomputed := f.extractLsb' 24 8 + f.extractLsb' 16 8 + f.extractLsb' 8 8
    (s.params.cksumOrCarry = false → recomputed = f.extractLsb' 0 8) ∧
    (s.params.cksumOrCarry = true → f.extractLsb' 8 8 ≠ BitVec.ofNat 8 cb →
      recomputed = BitVec.ofNat 8 (0xA3 + cb + 1) ∧ recomputed ≠ f.extractLsb' 0 8)

/-- 20_memory R42, 30_encoding R60: position i of the frame's string is `req_frame[31-i]`, and byte k of its buffer is
the number at positions 8k to 8k+7. -/
def Obligations.RequestFrameWireForms : Prop :=
  ∀ f : Word32, (frameString f).length = 32 ∧
    (∀ i, i < 32 → (frameString f)[i]? = some (f.getLsbD (31 - i))) ∧
    (frameBuffer f).length = 4 ∧
    (∀ k, k < 4 → ((frameBuffer f)[k]?).map BitVec.toNat = some (val (frameByte (frameString f) k)))

/-! ### PARSE_STATUS -/

/-- 41_response_parser R101, 60_exceptions R144: a frame that ends before `PAY_POS`. -/
def Obligations.FrameShorterThanFixedPart : Prop :=
  ∀ (s : State) (frame : BitStr), frame.length < s.params.payPos →
    (s.params.strictLen = false → exec (.parseStatus frame) s = .next
      { params := s.params, pending := none,
        out := { Outputs.noValue with err := some 0, outLen := some 0, outBits := some [], shortRead := some true } }) ∧
    (s.params.strictLen = true → exec (.parseStatus frame) s = .next
      { params := s.params, pending := none, out := { Outputs.noValue with err := some 3 } })

/-- 41_response_parser R102 to R105, 60_exceptions R145: with the fixed part present, N is the length field, read most
significant bit first and zero-extended to 16 bits; the array is the frame's bits from `PAY_POS` on, at most 8N of them;
a shorter one is `short_read` or, in a strict instance, an error. -/
def Obligations.PayloadSliceAndShortRead : Prop :=
  ∀ (s : State) (frame : BitStr), s.params.Legal → s.params.payPos ≤ frame.length →
    ∃ (n : Nat) (a : BitStr),
      n = val (slice frame 24 (24 + s.params.lenFieldW)) ∧ n < 2 ^ 16 ∧
      a.length = min (8 * n) (frame.length - s.params.payPos) ∧
      (∀ i < a.length, a[i]? = frame[s.params.payPos + i]?) ∧
      (s.params.payPos + 8 * n ≤ frame.length ∨ s.params.strictLen = false →
        exec (.parseStatus frame) s = .next
          { params := s.params, pending := none,
            out := { Outputs.noValue with
              err := some 0
              nField := some (BitVec.ofNat 16 n)
              outLen := some a.length
              outBits := some a
              shortRead := some (decide (frame.length < s.params.payPos + 8 * n)) } }) ∧
      (frame.length < s.params.payPos + 8 * n → s.params.strictLen = true →
        exec (.parseStatus frame) s = .next
          { params := s.params, pending := none, out := { Outputs.noValue with err := some 4 } })

/-- 41_response_parser R112: a synthetic frame gives back its payload, in every layout, with any trailing bits. -/
def Obligations.ResponseRoundTrip : Prop :=
  ∀ (s : State) (t c n : Nat) (filler payload trailing : BitStr), s.params.Legal → n < 2 ^ s.params.lenFieldW →
    filler.length = s.params.payPos - 24 - s.params.lenFieldW → payload.length = 8 * n →
    exec (.parseStatus (bitsOf 16 t ++ bitsOf 8 c ++ bitsOf s.params.lenFieldW n ++ filler ++ payload ++ trailing)) s =
      .next
        { params := s.params, pending := none,
          out := { Outputs.noValue with
            err := some 0
            nField := some (BitVec.ofNat 16 n)
            outLen := some (8 * n)
            outBits := some payload
            shortRead := some false } }

/-- 30_encoding R64, 41_response_parser R108: positions 0 to 23, and those between the length field and the payload, do not
matter; frames of one length that agree everywhere else have the same outcome. -/
def Obligations.HeaderAndFillerNotDecoded : Prop :=
  ∀ (s : State) (x y : BitStr), s.params.Legal → x.length = y.length →
    (∀ i, (24 ≤ i ∧ i < 24 + s.params.lenFieldW) ∨ s.params.payPos ≤ i → x[i]? = y[i]?) →
    ∃ t, exec (.parseStatus x) s = .next t ∧ exec (.parseStatus y) s = .next t

/-- 30_encoding R65, 41_response_parser R109: bits at positions `PAY_POS + 8N` and above do not matter; a frame and the
frame cut off there have the same outcome. -/
def Obligations.TrailingBitsNotDecoded : Prop :=
  ∀ (s : State) (frame : BitStr), s.params.Legal → s.params.payPos ≤ frame.length →
    ∃ t, exec (.parseStatus frame) s = .next t ∧
      exec (.parseStatus
        (frame.take (s.params.payPos + 8 * val (slice frame 24 (24 + s.params.lenFieldW))))) s = .next t

/-- 41_response_parser R110: an instance that is not strict raises no error for any frame. -/
def Obligations.LenientParserNeverRaises : Prop :=
  ∀ (s : State) (frame : BitStr), s.params.strictLen = false →
    ∃ t, exec (.parseStatus frame) s = .next t ∧ t.out.err = some 0

/-- 41_response_parser R107: when `short_read` is 1. -/
def Obligations.ShortReadExactly : Prop :=
  ∀ (s t : State) (frame : BitStr), exec (.parseStatus frame) s = .next t →
    (s.params.strictLen = false → (t.out.shortRead = some true ↔
      frame.length < s.params.payPos ∨
        frame.length < s.params.payPos + 8 * val (slice frame 24 (24 + s.params.lenFieldW)))) ∧
    (s.params.strictLen = true → t.out.shortRead ≠ some true)

/-- 41_response_parser R115: bounds on the array. -/
def Obligations.StatusArrayBounds : Prop :=
  ∀ (s t : State) (frame : BitStr) (len : Nat), s.params.Legal → exec (.parseStatus frame) s = .next t →
    t.out.outLen = some len →
    len ≤ frame.length - s.params.payPos ∧
    (s.params.payPos ≤ frame.length →
      len ≤ 8 * val (slice frame 24 (24 + s.params.lenFieldW)) ∧
      8 * val (slice frame 24 (24 + s.params.lenFieldW)) ≤ 8 * (2 ^ s.params.lenFieldW - 1)) ∧
    (t.out.shortRead = some false → 8 ∣ len)

/-! ### TO_SIGNED32 -/

/-- 42_status_interpreter R122 to R124, R126: the two stages. The unsigned reading u of the array, less 2^w where position
0 is set; `sval` is its remainder mod 2^32, and reads as a signed number as m - 2^32 where m ≥ 2^31, else as m. -/
def Obligations.TwoStageConversion : Prop :=
  ∀ (s : State) (a : BitStr), a.length ≤ 32 →
    let sgn : Int := if a[0]? = some true then (val a : Int) - 2 ^ a.length else val a
    let m : Int := sgn % 2 ^ 32
    val a < 2 ^ a.length ∧ ∃ v : Word32,
      exec (.toSigned32 a) s = .next
        { params := s.params, pending := none, out := { Outputs.noValue with err := some 0, sval := some v } } ∧
      (v.toNat : Int) = m ∧
      v.toInt = if m ≥ 2 ^ 31 then m - 2 ^ 32 else m

/-- 42_status_interpreter R127: the two stages equal one sign extension from the array's own width, and the second stage
never changes the value of the first. -/
def Obligations.TwoStagesEqualSignExtension : Prop :=
  ∀ (s : State) (a : BitStr), a.length ≤ 32 →
    ∃ t v, exec (.toSigned32 a) s = .next t ∧ t.out.sval = some v ∧
      v.toInt = (if a[0]? = some true then (val a : Int) - 2 ^ a.length else val a) ∧
      (1 ≤ a.length → v.toNat = sext 32 (val a) a.length) ∧
      (a.length = 0 → v = 0)

/-- 42_status_interpreter R128: the range of a result of width w. -/
def Obligations.SignedResultRange : Prop :=
  ∀ (s : State) (a : BitStr), a.length ≤ 32 →
    ∃ t v, exec (.toSigned32 a) s = .next t ∧ t.out.sval = some v ∧
      (1 ≤ a.length → -(2 ^ (a.length - 1)) ≤ v.toInt ∧ v.toInt ≤ 2 ^ (a.length - 1) - 1) ∧
      (a = [] → v.toInt = 0)

/-- 42_status_interpreter R131: leading zeros before a zero do not change the value; a zero before a leading 1 does. -/
def Obligations.WidthMattersForLeadingOne : Prop :=
  ∀ (s : State) (a : BitStr) (k : Nat),
    (a.length + 1 + k ≤ 32 →
      ∃ t, exec (.toSigned32 (false :: a)) s = .next t ∧
        exec (.toSigned32 (List.replicate k false ++ false :: a)) s = .next t) ∧
    (a.length + 2 ≤ 32 →
      ∃ t u, exec (.toSigned32 (true :: a)) s = .next t ∧ exec (.toSigned32 (false :: true :: a)) s = .next u ∧
        t.out.sval ≠ u.out.sval)

/-- 42_status_interpreter R121, 60_exceptions R143: more than 32 bits raise E_ARRAY_OVERSIZE, whatever the bits. -/
def Obligations.ArrayOversizeRaised : Prop :=
  ∀ (s : State) (a : BitStr), 32 < a.length →
    exec (.toSigned32 a) s = .next
      { params := s.params, pending := none, out := { Outputs.noValue with err := some 2 } }

/-! ### The reserved operation, errors, and the operations together -/

/-- 30_encoding R57, 60_exceptions R147: a descriptor with `op` = 0b11 that the ports can carry (10_state R27, R32) raises
E_ILLEGAL_OP whatever they carry, and no data output has a value. -/
def Obligations.ReservedOperationRaises : Prop :=
  ∀ (s : State) (cmd inLen : Nat) (bits : BitStr), s.pending = some ⟨0b11#2, cmd, inLen, bits⟩ →
    cmd < 2 ^ s.params.cmdInW → inLen ≤ s.params.maxInBits → bits.length ≤ s.params.maxInBits →
    step s = .next { params := s.params, pending := none, out := { Outputs.noValue with err := some 5 } } ∧
    exec .reservedOp3 s = .next { params := s.params, pending := none, out := { Outputs.noValue with err := some 5 } }

/-- 60_exceptions R141: which operation drives which code, and when; codes 6 and 7 never. -/
def Obligations.ErrorCodeTable : Prop :=
  ∀ (i : Instr) (s : State), ∃ t c, exec i s = .next t ∧ t.out.err = some c ∧
    (c = 1 ↔ ∃ cmd, i = .buildRequest cmd ∧ 2 ^ 32 ≤ commandNumber s.params cmd) ∧
    (c = 2 ↔ ∃ a, i = .toSigned32 a ∧ 32 < a.length) ∧
    (c = 3 ↔ ∃ frame, i = .parseStatus frame ∧ s.params.strictLen = true ∧ frame.length < s.params.payPos) ∧
    (c = 4 ↔ ∃ frame, i = .parseStatus frame ∧ s.params.strictLen = true ∧ s.params.payPos ≤ frame.length ∧
      frame.length < s.params.payPos + 8 * val (slice frame 24 (24 + s.params.lenFieldW))) ∧
    (c = 5 ↔ i = .reservedOp3) ∧ c ≠ 6 ∧ c ≠ 7

/-- 60_exceptions R146: an error drives `err` alone and changes no parameter; the instance is free. -/
def Obligations.ErrorDrivesNoData : Prop :=
  ∀ (i : Instr) (s t : State) (c : BitVec 3), exec i s = .next t → t.out.err = some c → c ≠ 0 →
    t = { params := s.params, pending := none, out := { Outputs.noValue with err := some c } }

/-- 42_status_interpreter R134, 70_reset_and_hazards R173: the array of a complete frame is accepted by TO_SIGNED32 when
N ≤ 4, and raises E_ARRAY_OVERSIZE when N ≥ 5. -/
def Obligations.CompleteFrameConvertsUpToFourBytes : Prop :=
  ∀ (s : State) (frame : BitStr),
    let n := val (slice frame 24 (24 + s.params.lenFieldW))
    s.params.payPos + 8 * n ≤ frame.length →
    ∃ t a, exec (.parseStatus frame) s = .next t ∧ t.out.outBits = some a ∧ a.length = 8 * n ∧
      (n ≤ 4 → ∃ u, exec (.toSigned32 a) t = .next u ∧ u.out.err = some 0 ∧ u.out.sval.isSome) ∧
      (5 ≤ n → ∃ u, exec (.toSigned32 a) t = .next u ∧ u.out.err = some 2 ∧ u.out.sval = none)

/-- 30_encoding R74: STATUS32 is PARSE_STATUS and then, unless that ended in an error, TO_SIGNED32 of its array. -/
def Obligations.Status32Expansion : Prop :=
  ∀ (s : State) (bits : BitStr), s.pending = none → bits.length ≤ s.params.maxInBits →
    ∃ t c, exec (.parseStatus bits) s = .next t ∧ t.out.err = some c ∧
      (c ≠ 0 → status32 bits s = .next t) ∧
      (c = 0 → ∃ a u, t.out.outBits = some a ∧ exec (.toSigned32 a) t = .next u ∧ status32 bits s = .next u)

/-- 30_encoding R73: an integer that a script writes reaches the `cmd` port as a word of `CMD_IN_W` bits that is the
integer mod 2^CMD_IN_W, and BUILD_REQUEST reads it back as that integer, where the port's reading has it in range (the
range is the model's choice, log 14). A leading `-` is refused in an unsigned instance, before a 0 too. -/
def Obligations.ScriptIntegerReachesBuilder : Prop :=
  ∀ (p : Params) (n : ScriptInt), p.Legal →
    (p.cmdSigned = false → n.minus = false → n.magnitude < 2 ^ p.cmdInW →
      ∃ w, cmdWord p n = .next w ∧ w < 2 ^ p.cmdInW ∧ commandNumber p w = n.magnitude) ∧
    (p.cmdSigned = false → n.minus = true → cmdWord p n = .refused .negativeCommand) ∧
    (p.cmdSigned = true → -(2 ^ (p.cmdInW - 1)) ≤ n.value → n.value < 2 ^ (p.cmdInW - 1) →
      ∃ w, cmdWord p n = .next w ∧ w < 2 ^ p.cmdInW ∧ (w : Int) = n.value % 2 ^ p.cmdInW ∧ commandNumber p w = n.value)

/-- 30_encoding R73: the text of a result read, a name, a dot and the port's word, reads that port of the result the name
is bound to, and the six words name six different ports. What a name is, is the model's choice (log 14). -/
def Obligations.ResultTextReadsNamedPort : Prop :=
  (∀ (env : ScriptEnv) (name : List Char) (k : ResultPort), readName name = some name →
    readText env (name ++ '.' :: resultText k) = readResult env name k) ∧
  (∀ j k : ResultPort, resultText j = resultText k → j = k)

/-- 20_memory R51, 60_exceptions R158: actions of two different instances can be taken in either order with the same
result, and an action of one leaves every other instance as it was. -/
def Obligations.InstancesAreIndependent : Prop :=
  ∀ (sys sys' : List State) (j k : Nat) (a b : Action), j ≠ k →
    (actAt j a sys = .next sys' → sys'[k]? = sys[k]?) ∧
    (andThen (actAt j a sys) (actAt k b) = .next sys' → andThen (actAt k b sys) (actAt j a) = .next sys')

/-! ### The invariant -/

/-- Every instance with legal parameters, and so the reset state, meets the invariant. -/
def Obligations.FreshInstanceMeetsInvariant : Prop :=
  (∀ p : Params, p.Legal → (State.instantiate p).Inv) ∧ State.reset.Inv

/-- Every step keeps the invariant: the parameters stay legal and unchanged, and the output ports carry nothing or one
transaction's whole outcome, within the bounds of its rules. Presenting and reset keep it too. -/
def Obligations.StepKeepsInvariant : Prop :=
  ∀ s t : State, s.Inv →
    (step s = .next t → t.Inv ∧ t.params = s.params) ∧
    (∀ d, present d s = .next t → t.Inv ∧ t.params = s.params) ∧
    (s.resetEvent.Inv ∧ s.resetEvent.params = s.params)
end

