-- ==== Sys2Proof/Laws/BitString.lean ====
section
/-!
SUPPORT. The bit-string and port-word primitives: lengths, positions, and that each reader undoes its writer.
-/

namespace Sys2Proof

@[simp] theorem slice_length (s : BitStr) (a b : Nat) : (slice s a b).length = min b s.length - a := by
  simp [slice]

theorem slice_getElem? (s : BitStr) (a b i : Nat) :
    (slice s a b)[i]? = if a + i < b then s[a + i]? else none := by
  simp [slice, List.getElem?_drop, List.getElem?_take]

theorem slice_zero_length (s : BitStr) : slice s 0 s.length = s := by simp [slice]

/-- A slice that lies inside the middle part of a concatenation. -/
theorem slice_append_mid (x y z : BitStr) (a b : Nat) (ha : a = x.length) (hb : b = x.length + y.length) :
    slice (x ++ y ++ z) a b = y := by
  subst ha hb
  simp only [slice]
  rw [List.take_append_of_le_length (by simp), List.take_of_length_le (by simp), List.drop_left]

@[simp] theorem val_nil : val [] = 0 := rfl
theorem val_cons (b : Bool) (t : BitStr) : val (b :: t) = b.toNat * 2 ^ t.length + val t := rfl

theorem val_lt (s : BitStr) : val s < 2 ^ s.length := by
  induction s with
  | nil => simp
  | cons b t ih =>
    rw [val_cons, List.length_cons, Nat.pow_succ]
    cases b <;> simp <;> omega

@[simp] theorem bitsOf_length (w v : Nat) : (bitsOf w v).length = w := by
  induction w with
  | zero => rfl
  | succ w ih => simp [bitsOf, ih]

theorem val_bitsOf (w v : Nat) : val (bitsOf w v) = v % 2 ^ w := by
  induction w with
  | zero => simp [bitsOf, Nat.mod_one]
  | succ w ih =>
    rw [bitsOf, val_cons, ih, bitsOf_length, Nat.mod_pow_succ, Nat.toNat_testBit]
    ring

@[simp] theorem portBits_length (w v : Nat) : (portBits w v).length = w := by
  induction w generalizing v with
  | zero => rfl
  | succ w ih => simp [portBits, ih]

theorem portVal_portBits (w v : Nat) : portVal (portBits w v) = v % 2 ^ w := by
  induction w generalizing v with
  | zero => simp [portBits, portVal, Nat.mod_one]
  | succ w ih =>
    rw [portBits, portVal, ih, Nat.pow_succ, Nat.mul_comm (2 ^ w) 2, Nat.mod_mul]
    simp [Nat.testBit_zero]
    rcases Nat.mod_two_eq_zero_or_one v with h | h <;> simp [h]

theorem portVal_lt (bits : List Bool) : portVal bits < 2 ^ bits.length := by
  induction bits with
  | nil => simp [portVal]
  | cons b t ih =>
    rw [portVal, List.length_cons, Nat.pow_succ]
    cases b <;> simp <;> omega

/-- Writing out the number that a list of bits reads as gives the bits, and zeros up to the width. -/
theorem portBits_portVal (bits : List Bool) (w : Nat) (h : bits.length ≤ w) :
    portBits w (portVal bits) = bits ++ List.replicate (w - bits.length) false := by
  induction bits generalizing w with
  | nil =>
    simp only [portVal, List.length_nil, Nat.sub_zero, List.nil_append]
    clear h
    induction w with
    | zero => rfl
    | succ w ih => simp [portBits, ih, List.replicate_succ]
  | cons b t ih =>
    cases w with
    | zero => simp at h
    | succ w =>
      have hw : t.length ≤ w := by simpa using h
      have hd : (b.toNat + 2 * portVal t) / 2 = portVal t := by
        cases b
        · simp
        · simp; omega
      have hb : (b.toNat + 2 * portVal t).testBit 0 = b := by cases b <;> simp [Nat.testBit_zero]
      rw [portBits, portVal, hd, hb, ih w hw]
      simp

@[simp] theorem bytesOfNum_length (n v : Nat) : (bytesOfNum n v).length = n := by
  induction n generalizing v with
  | zero => rfl
  | succ n ih => simp [bytesOfNum, ih]

/-- Reading back the bytes a number was written out in gives the number, when they hold it. -/
theorem numOfBytes_bytesOfNum (n v : Nat) (h : v < 2 ^ (8 * n)) : numOfBytes (bytesOfNum n v) = v := by
  induction n generalizing v with
  | zero =>
    have : v = 0 := by simpa using h
    simp [bytesOfNum, numOfBytes, this]
  | succ n ih =>
    have hd : v / 256 < 2 ^ (8 * n) := by
      rw [Nat.div_lt_iff_lt_mul (by omega)]
      rwa [Nat.mul_succ, Nat.pow_add] at h
    rw [bytesOfNum, numOfBytes, ih _ hd, BitVec.toNat_ofNat]
    omega

end Sys2Proof
end

