-- ==== Sys2Proof/Laws/State.lean ====
section
/-!
SUPPORT. What each update of the state and each outcome's drive of the output ports leaves in every field.
-/

namespace Sys2Proof.Machine

@[simp] theorem conclude_params (s : State) (o : TxOutcome) : (s.conclude o).params = s.params := rfl
@[simp] theorem conclude_pending (s : State) (o : TxOutcome) : (s.conclude o).pending = none := rfl
@[simp] theorem conclude_out (s : State) (o : TxOutcome) : (s.conclude o).out = drive o := rfl

@[simp] theorem instantiate_params (p : Params) : (State.instantiate p).params = p := rfl
@[simp] theorem instantiate_pending (p : Params) : (State.instantiate p).pending = none := rfl
@[simp] theorem instantiate_out (p : Params) : (State.instantiate p).out = Outputs.noValue := rfl

@[simp] theorem drive_err_err (c : ErrCode) : (drive (.err c)).err = some (errBits c) := rfl
@[simp] theorem drive_err_reqFrame (c : ErrCode) : (drive (.err c)).reqFrame = none := rfl
@[simp] theorem drive_err_nField (c : ErrCode) : (drive (.err c)).nField = none := rfl
@[simp] theorem drive_err_outLen (c : ErrCode) : (drive (.err c)).outLen = none := rfl
@[simp] theorem drive_err_outBits (c : ErrCode) : (drive (.err c)).outBits = none := rfl
@[simp] theorem drive_err_shortRead (c : ErrCode) : (drive (.err c)).shortRead = none := rfl
@[simp] theorem drive_err_sval (c : ErrCode) : (drive (.err c)).sval = none := rfl

@[simp] theorem drive_ok_err (d : TxData) : (drive (.ok d)).err = some errOk := by cases d <;> rfl

@[simp] theorem drive_build_reqFrame (f : Word32) : (drive (.ok (.build f))).reqFrame = some f := rfl
@[simp] theorem drive_build_nField (f : Word32) : (drive (.ok (.build f))).nField = none := rfl
@[simp] theorem drive_build_outLen (f : Word32) : (drive (.ok (.build f))).outLen = none := rfl
@[simp] theorem drive_build_outBits (f : Word32) : (drive (.ok (.build f))).outBits = none := rfl
@[simp] theorem drive_build_shortRead (f : Word32) : (drive (.ok (.build f))).shortRead = none := rfl
@[simp] theorem drive_build_sval (f : Word32) : (drive (.ok (.build f))).sval = none := rfl

section parse
variable (n : Option (BitVec 16)) (b : BitStr) (sr : Bool)
@[simp] theorem drive_parse_reqFrame : (drive (.ok (.parse n b sr))).reqFrame = none := rfl
@[simp] theorem drive_parse_nField : (drive (.ok (.parse n b sr))).nField = n := rfl
@[simp] theorem drive_parse_outLen : (drive (.ok (.parse n b sr))).outLen = some b.length := rfl
@[simp] theorem drive_parse_outBits : (drive (.ok (.parse n b sr))).outBits = some b := rfl
@[simp] theorem drive_parse_shortRead : (drive (.ok (.parse n b sr))).shortRead = some sr := rfl
@[simp] theorem drive_parse_sval : (drive (.ok (.parse n b sr))).sval = none := rfl
end parse

@[simp] theorem drive_conv_reqFrame (v : Word32) : (drive (.ok (.conv v))).reqFrame = none := rfl
@[simp] theorem drive_conv_nField (v : Word32) : (drive (.ok (.conv v))).nField = none := rfl
@[simp] theorem drive_conv_outLen (v : Word32) : (drive (.ok (.conv v))).outLen = none := rfl
@[simp] theorem drive_conv_outBits (v : Word32) : (drive (.ok (.conv v))).outBits = none := rfl
@[simp] theorem drive_conv_shortRead (v : Word32) : (drive (.ok (.conv v))).shortRead = none := rfl
@[simp] theorem drive_conv_sval (v : Word32) : (drive (.ok (.conv v))).sval = some v := rfl

end Sys2Proof.Machine
end

