-- ==== Sys2Proof/Laws/Ops.lean ====
section
/-!
SUPPORT. Once for each shared operation, everything it can answer: `andThen`, `readPort`, `deliver`, `raise`, `present`,
decoding, `cmdWord`, the four meanings, and `step`.
-/

namespace Sys2Proof.Machine

theorem andThen_eq_next {α β : Type} {x : Host.Outcome α Fault Refusal} {f : α → Host.Outcome β Fault Refusal} {b : β} :
    andThen x f = .next b ↔ ∃ a, x = .next a ∧ f a = .next b := by
  cases x <;> simp [andThen]

@[simp] theorem andThen_next {α β : Type} (a : α) (f : α → Host.Outcome β Fault Refusal) :
    andThen (.next a) f = f a := rfl

theorem readPort_eq_next {α : Type} {port : OutPort} {v : Option α} {x : α} :
    readPort port v = .next x ↔ v = some x := by
  cases v <;> simp [readPort]

@[simp] theorem deliver_eq_next {d : TxData} {s t : State} : deliver d s = .next t ↔ t = s.conclude (.ok d) := by
  simp [deliver, eq_comm]

@[simp] theorem raise_eq_next {e : ErrCode} {s t : State} : raise e s = .next t ↔ t = s.conclude (.err e) := by
  simp [raise, eq_comm]

/-- `present` answers a next state exactly when nothing is in flight and the descriptor is a transaction. -/
theorem present_eq_next {d : Descriptor} {s t : State} :
    present d s = .next t ↔
      s.pending = none ∧ (∃ i, decode s.params d = .ok i) ∧ t = { s with pending := some d, out := Outputs.noValue } := by
  unfold present
  cases hp : s.pending with
  | some _ => simp
  | none => cases hd : decode s.params d <;> simp [eq_comm]

/-- `checkPorts` lets through exactly what the ports can carry. -/
theorem checkPorts_eq_ok {p : Params} {d : Descriptor} {u : Unit} :
    checkPorts p d = .ok u ↔ d.inLen ≤ p.maxInBits ∧ d.inBits.length ≤ p.maxInBits ∧ d.cmd < 2 ^ p.cmdInW := by
  unfold checkPorts
  split
  · simp; omega
  split
  · simp; omega
  split
  · simp; omega
  · simp; omega

theorem readBits_eq_ok {d : Descriptor} {a : BitStr} :
    readBits d = .ok a ↔ d.inLen ≤ d.inBits.length ∧ a = slice d.inBits 0 d.inLen := by
  unfold readBits
  split
  · simp; omega
  · simp only [Except.ok.injEq, eq_comm (a := a)]
    exact ⟨fun h => ⟨by omega, h⟩, fun h => h.2⟩

/-- A descriptor that the ports can carry decodes as `op` selects. -/
theorem decode_of_ports {p : Params} {d : Descriptor} (hl : d.inLen ≤ p.maxInBits) (hb : d.inBits.length ≤ p.maxInBits)
    (hc : d.cmd < 2 ^ p.cmdInW) : decode p d = select d := by
  have h : checkPorts p d = .ok () := checkPorts_eq_ok.mpr ⟨hl, hb, hc⟩
  simp [decode, h]

/-- A well-formed operation's own descriptor decodes to it. -/
theorem decode_toDescriptor {p : Params} {i : Instr} (h : i.wf p = true) : decode p (toDescriptor i) = .ok i := by
  cases i with
  | buildRequest cmd =>
    have hc : cmd < 2 ^ p.cmdInW := by simpa [Instr.wf] using h
    exact decode_of_ports (by simp [toDescriptor]) (by simp [toDescriptor]) hc
  | parseStatus a =>
    have ha : a.length ≤ p.maxInBits := by simpa [Instr.wf] using h
    rw [decode_of_ports ha ha (by simp [toDescriptor])]
    simp [toDescriptor, select, readBits, Except.map, slice]
  | toSigned32 a =>
    have ha : a.length ≤ p.maxInBits := by simpa [Instr.wf] using h
    rw [decode_of_ports ha ha (by simp [toDescriptor])]
    simp [toDescriptor, select, readBits, Except.map, slice]
  | reservedOp3 => exact decode_of_ports (by simp [toDescriptor]) (by simp [toDescriptor]) (by simp [toDescriptor])

/-- What decoding can answer (10_state R32, 30_encoding R56). -/
theorem decode_eq_ok {p : Params} {d : Descriptor} {i : Instr} (h : decode p d = .ok i) :
    (d.inLen ≤ p.maxInBits ∧ d.inBits.length ≤ p.maxInBits ∧ d.cmd < 2 ^ p.cmdInW) ∧
    ((d.op = 0b00#2 ∧ i = .buildRequest d.cmd) ∨
    (d.op = 0b01#2 ∧ ∃ a, readBits d = .ok a ∧ i = .parseStatus a) ∨
    (d.op = 0b10#2 ∧ ∃ a, readBits d = .ok a ∧ i = .toSigned32 a) ∨
    (d.op = 0b11#2 ∧ i = .reservedOp3)) := by
  unfold decode at h
  cases ha : checkPorts p d with
  | error _ => simp [ha] at h
  | ok _ =>
    refine ⟨checkPorts_eq_ok.mp ha, ?_⟩
    simp only [ha, select] at h
    split at h
    · exact .inl ⟨‹_›, by simpa using h.symm⟩
    split at h
    · cases hb : readBits d with
      | error _ => simp [hb, Except.map] at h
      | ok a => exact .inr (.inl ⟨‹_›, a, rfl, by simpa [hb, Except.map] using h.symm⟩)
    split at h
    · cases hb : readBits d with
      | error _ => simp [hb, Except.map] at h
      | ok a => exact .inr (.inr (.inl ⟨‹_›, a, rfl, by simpa [hb, Except.map] using h.symm⟩))
    · refine .inr (.inr (.inr ⟨?_, by simpa using h.symm⟩))
      generalize d.op = o at *
      revert o
      decide

/-- A decoded operation fits the ports. -/
theorem decode_wf {p : Params} {d : Descriptor} {i : Instr} (h : decode p d = .ok i) : i.wf p = true := by
  obtain ⟨⟨hl, -, hc⟩, ⟨-, rfl⟩ | ⟨-, a, ha, rfl⟩ | ⟨-, a, ha, rfl⟩ | ⟨-, rfl⟩⟩ := decode_eq_ok h
  · simpa [Instr.wf] using hc
  · obtain ⟨-, rfl⟩ := readBits_eq_ok.mp ha
    simp [Instr.wf]; omega
  · obtain ⟨-, rfl⟩ := readBits_eq_ok.mp ha
    simp [Instr.wf]; omega
  · rfl

/-- `cmdWord` answers exactly the two's-complement word of an integer the port may be given (30_encoding R73). -/
theorem cmdWord_eq_next {p : Params} {n : ScriptInt} {w : Nat} :
    cmdWord p n = .next w ↔ (n.minus = true → p.cmdSigned = true) ∧
      (-(2 ^ (p.cmdInW - 1) : Int) ≤ n.value ∧ n.value < 2 ^ p.cmdInW) ∧ w = (n.value % 2 ^ p.cmdInW).toNat := by
  unfold cmdWord
  cases n.minus <;> cases p.cmdSigned <;> simp [eq_comm (a := w)] <;> split <;> simp_all

/-- What BUILD_REQUEST can answer. -/
theorem execBuildRequest_cases (cmd : Nat) (s : State) :
    (cmdOversize (commandNumber s.params cmd) = true ∧ execBuildRequest cmd s = .next (s.conclude (.err .cmdOversize))) ∨
    (cmdOversize (commandNumber s.params cmd) = false ∧ execBuildRequest cmd s =
      .next (s.conclude (.ok (.build (requestFrame s.params (commandByte (commandNumber s.params cmd))))))) := by
  unfold execBuildRequest
  cases h : cmdOversize (commandNumber s.params cmd) <;> simp [raise, deliver, h]

/-- What PARSE_STATUS can answer. -/
theorem execParseStatus_cases (frame : BitStr) (s : State) :
    (frame.length < s.params.payPos ∧ s.params.strictLen = true ∧
      execParseStatus frame s = .next (s.conclude (.err .hdrShort))) ∨
    (frame.length < s.params.payPos ∧ s.params.strictLen = false ∧
      execParseStatus frame s = .next (s.conclude (.ok (.parse none [] true)))) ∨
    (s.params.payPos ≤ frame.length ∧ s.params.strictLen = true ∧
      payloadShort (payloadOf s.params frame (lengthField s.params frame)) (lengthField s.params frame) = true ∧
      execParseStatus frame s = .next (s.conclude (.err .payloadShort))) ∨
    (s.params.payPos ≤ frame.length ∧
      (s.params.strictLen = true →
        payloadShort (payloadOf s.params frame (lengthField s.params frame)) (lengthField s.params frame) = false) ∧
      execParseStatus frame s = .next (s.conclude (.ok (.parse (some (BitVec.ofNat 16 (lengthField s.params frame)))
        (payloadOf s.params frame (lengthField s.params frame))
        (payloadShort (payloadOf s.params frame (lengthField s.params frame)) (lengthField s.params frame)))))) := by
  unfold execParseStatus
  by_cases h : frame.length < s.params.payPos
  · cases hs : s.params.strictLen
    · exact .inr (.inl ⟨h, rfl, by simp [h, hs, deliver]⟩)
    · exact .inl ⟨h, rfl, by simp [h, hs, raise]⟩
  · have h' : s.params.payPos ≤ frame.length := by omega
    cases hs : s.params.strictLen <;>
      cases hp : payloadShort (payloadOf s.params frame (lengthField s.params frame)) (lengthField s.params frame)
    · exact .inr (.inr (.inr ⟨h', by simp, by simp [h, hs, hp, deliver]⟩))
    · exact .inr (.inr (.inr ⟨h', by simp, by simp [h, hs, hp, deliver]⟩))
    · exact .inr (.inr (.inr ⟨h', by simp, by simp [h, hs, hp, deliver]⟩))
    · exact .inr (.inr (.inl ⟨h', rfl, rfl, by simp [h, hs, hp, raise]⟩))

/-- What TO_SIGNED32 can answer. -/
theorem execToSigned32_cases (a : BitStr) (s : State) :
    (32 < a.length ∧ execToSigned32 a s = .next (s.conclude (.err .arrayOversize))) ∨
    (a.length ≤ 32 ∧ execToSigned32 a s =
      .next (s.conclude (.ok (.conv (BitVec.ofInt 32 (normalise32 (signedByWidth a))))))) := by
  unfold execToSigned32 maxArray
  by_cases h : 32 < a.length
  · exact .inl ⟨h, by simp [h, raise]⟩
  · exact .inr ⟨by omega, by simp [h, deliver]⟩

/-- The reserved code answers one thing. -/
theorem execReservedOp3_eq (s : State) : execReservedOp3 s = .next (s.conclude (.err .illegalOp)) := rfl

/-- Every operation ends with an outcome on the output ports and nothing else changed. -/
theorem exec_eq_conclude (i : Instr) (s : State) : ∃ o, exec i s = .next (s.conclude o) := by
  cases i with
  | buildRequest cmd => obtain ⟨-, h⟩ | ⟨-, h⟩ := execBuildRequest_cases cmd s <;> exact ⟨_, h⟩
  | parseStatus frame =>
    obtain ⟨-, -, h⟩ | ⟨-, -, h⟩ | ⟨-, -, -, h⟩ | ⟨-, -, h⟩ := execParseStatus_cases frame s <;> exact ⟨_, h⟩
  | toSigned32 a => obtain ⟨-, h⟩ | ⟨-, h⟩ := execToSigned32_cases a s <;> exact ⟨_, h⟩
  | reservedOp3 => exact ⟨_, execReservedOp3_eq s⟩

/-- Everything a step can do. -/
theorem step_cases (s : State) :
    (s.pending = none ∧ step s = .next s) ∨
    (∃ d e, s.pending = some d ∧ decode s.params d = .error e ∧ step s = .refused (.atInterface e)) ∨
    (∃ d i, s.pending = some d ∧ decode s.params d = .ok i ∧ step s = exec i s) := by
  unfold step
  cases hp : s.pending with
  | none => simp
  | some d =>
    cases hd : decode s.params d with
    | error e => exact .inr (.inl ⟨d, e, rfl, hd, by simp [hd]⟩)
    | ok i => exact .inr (.inr ⟨d, i, rfl, hd, by simp [hd]⟩)

end Sys2Proof.Machine
end

