-- ==== Sys2Proof/Laws/PerInstr.lean ====
section
/-!
SUPPORT. Families of statements about an operation as syntax, one lemma per constructor of `Instr`.
-/

namespace Sys2Proof.Laws

/-- A packed descriptor has `op` in its two lowest bits, whatever the other ports carry. -/
theorem numOfPorts_mod_four (p : Params) (d : Descriptor) : numOfPorts p d % 4 = d.op.toNat := by
  have := d.op.isLt
  unfold numOfPorts
  omega

/-- The `op` field stands where spec/opcode_table.json has it: bits 1:0 of the packed descriptor are the code that
30_encoding R56 gives the operation. -/
def OpFieldPlace.Statement (i : Instr) : Prop :=
  ∀ p : Params, numOfPorts p (toDescriptor i) % 4 = (opOf i).toNat

theorem OpFieldPlace.buildRequest (cmd : Nat) : OpFieldPlace.Statement (.buildRequest cmd) :=
  fun p => numOfPorts_mod_four p _

theorem OpFieldPlace.parseStatus (frame : BitStr) : OpFieldPlace.Statement (.parseStatus frame) :=
  fun p => numOfPorts_mod_four p _

theorem OpFieldPlace.toSigned32 (array : BitStr) : OpFieldPlace.Statement (.toSigned32 array) :=
  fun p => numOfPorts_mod_four p _

theorem OpFieldPlace.reservedOp3 : OpFieldPlace.Statement .reservedOp3 :=
  fun p => numOfPorts_mod_four p _

end Sys2Proof.Laws
end

