-- ==== Sys2Proof/Tests/Slice0.lean ====
section
/-!
SUPPORT. Our own tests: ill-formed terms that each check refuses, words written out from the encoding, worked values of
95_test_vectors, and for each statement with hypotheses a state and operands that meet them, at the ends of its ranges.
Expected values come from the spec's tables, cited beside each test.
-/

namespace Sys2Proof.Tests

open Sys2Proof.Machine

/-- A small instance: layout A with room for a 48-bit input. -/
def small : Params := { Params.default with maxInBits := 48, lenW := 6 }

/-- The small instance made strict. -/
def strict : Params := { small with strictLen := true }

/-- The small instance in layout C. -/
def layoutC : Params := { small with lenFieldW := 8, payPos := 32 }

/-- The small instance in layout B. -/
def layoutB : Params := { small with lenFieldW := 8 }

/-- The small instance with the literal checksum packing. -/
def literal : Params := { small with cksumOrCarry := true }

/-- The small instance with signed command numbers. -/
def signed : Params := { small with cmdSigned := true }

/-- An instance whose output ports carry an earlier outcome. -/
def used (p : Params) : State := { State.instantiate p with out := drive (.ok (.conv 7)) }

/-- The output ports after an operation of an instance. -/
def outAfter (p : Params) (i : Instr) : Option Outputs := (next? (exec i (used p))).map (·.out)

/-! ### Well-formedness: an ill-formed term for each check -/

theorem test_wf_refuses_wide_cmd : (Instr.buildRequest (2 ^ 64)).wf Params.default = false := by decide
theorem test_wf_refuses_long_frame : (Instr.parseStatus (bitsOf 49 0)).wf small = false := by decide
theorem test_wf_refuses_long_array : (Instr.toSigned32 (bitsOf 49 0)).wf small = false := by decide
theorem test_wf_accepts_limits : (Instr.buildRequest (2 ^ 64 - 1)).wf Params.default = true ∧
    (Instr.parseStatus (bitsOf 48 0)).wf small = true ∧ (Instr.toSigned32 (bitsOf 48 0)).wf small = true ∧
    Instr.reservedOp3.wf small = true := by decide

theorem test_interface_length : decode small ⟨0b01#2, 0, 49, bitsOf 48 0⟩ = .error .lengthAboveMax := rfl
/-- 10_state R32 whatever the operation: BUILD_REQUEST and op 0b11 too. -/
theorem test_interface_every_op : decode small ⟨0b00#2, 1, 49, []⟩ = .error .lengthAboveMax ∧
    decode small ⟨0b11#2, 0, 0, bitsOf 49 0⟩ = .error .bitStringTooLong ∧
    decode small ⟨0b00#2, 1, 48, []⟩ = .ok (.buildRequest 1) := ⟨rfl, rfl, rfl⟩
theorem test_interface_long : decode small ⟨0b10#2, 0, 48, bitsOf 49 0⟩ = .error .bitStringTooLong := rfl
theorem test_interface_missing : decode small ⟨0b01#2, 0, 2, [true]⟩ = .error .bitsMissing := rfl
theorem test_interface_cmd : decode { small with cmdInW := 8 } ⟨0b00#2, 256, 0, []⟩ = .error .cmdDoesNotFit := rfl
theorem test_packed_short : decodeBytes Params.default (bytesOfNum 10 0) = .error .packedTooShort := rfl
theorem test_packed_long : decodeBytes small (bytesOfNum 16 3) = .error .packedTooLong := rfl

/-- The legal values of 00_scope R7: the default and layouts B and C are legal, `LEN_FIELD_W` = 16 with `PAY_POS` = 32 is
not (30_encoding R62). -/
theorem test_legal : Params.default.Legal ∧ small.Legal ∧ strict.Legal ∧ layoutB.Legal ∧ layoutC.Legal ∧ literal.Legal ∧
    signed.Legal ∧ ¬ ({ small with payPos := 32 } : Params).Legal := by decide

/-! ### Decoding: op in bits 1:0 (opcode_table.json), then cmd in bits 65:2, in_len in bits 85:66, in_bits from bit 86 -/

theorem test_decode_build : decodeTableWord 8 0b01111100 = some (.buildRequest 0x1F) := by decide
theorem test_decode_parse :
    decodeTableWord 96 (0b01 ||| 3 <<< 66 ||| 1 <<< 86 ||| 1 <<< 87) = some (.parseStatus [true, true, false]) := by decide
theorem test_decode_convert :
    decodeTableWord 96 (0b10 ||| 4 <<< 66 ||| 1 <<< 86 ||| 1 <<< 87 ||| 1 <<< 89) =
      some (.toSigned32 [true, true, false, true]) := by decide
theorem test_decode_reserved : decodeTableWord 8 0b11111111 = some .reservedOp3 := by decide

/-- The encoder writes the same bytes: 0x7C is `cmd` = 0x1F over `op` = 0b00. -/
theorem test_encode_build : encode Params.default (.buildRequest 0x1F) = 0x7C#8 :: bytesOfNum 10 0 := by decide

/-- The word stored where the step takes its next operation is the operation the step runs. -/
theorem test_fetch_reserved : (next? (step (State.reset.withFetchWord 8 0b11))).map (·.out.err) = some (some 5) := by decide
theorem test_fetch_build :
    (next? (step (State.reset.withFetchWord 8 0b01111100))).map (·.out.reqFrame) = some (some 0x52511FC2) := by decide

/-! ### Operations (95_test_vectors) -/

/-- 2.1.1, n = 0x15E: silent truncation, then carry. -/
theorem test_build_truncates : (outAfter Params.default (.buildRequest 0x15E)).map (·.reqFrame) = some (some 0x52515E01) := by
  decide

/-- 2.1.1, OR mode, n = 0x5E; and CMD_SIGNED, cmd = 0xFFFFFFFFFFFFFFE1. -/
theorem test_build_literal_and_signed :
    (outAfter literal (.buildRequest 0x5E)).map (·.reqFrame) = some (some 0x52515F01) ∧
    (outAfter signed (.buildRequest 0xFFFFFFFFFFFFFFE1)).map (·.reqFrame) = some (some 0x5251E184) := by decide

/-- 2.2.1, A6 (an incomplete last byte), every port. -/
theorem test_parse_short : outAfter small (.parseStatus (bitsOf 45 (0x52511F0001 * 32 + 0b10101))) =
    some { Outputs.noValue with
      err := some 0, nField := some 1, outLen := some 5, outBits := some [true, false, true, false, true],
      shortRead := some true } := by decide

/-- 2.2.2, A15 under layouts B and C: N = 1, 0xA5 and 0xEE. -/
theorem test_parse_layouts :
    (outAfter layoutB (.parseStatus (bitsOf 48 0x52511F01EEA5))).map (·.outBits) = some (some (bitsOf 8 0xA5)) ∧
    (outAfter layoutC (.parseStatus (bitsOf 48 0x52511F01EEA5))).map (·.outBits) = some (some (bitsOf 8 0xEE)) := by decide

/-- 2.3.1, `10101` is -11. -/
theorem test_convert_negative :
    (outAfter small (.toSigned32 [true, false, true, false, true])).map (·.sval) = some (some 0xFFFFFFF5) := by decide

/-- 2.3.1, `10100101` is -91 and its 32-bit form with leading zeros is 165. -/
theorem test_convert_width : (outAfter small (.toSigned32 (bitsOf 8 0xA5))).map (·.sval) = some (some 0xFFFFFFA5) ∧
    (outAfter small (.toSigned32 (bitsOf 32 0xA5))).map (·.sval) = some (some 0x000000A5) := by decide

/-- 2.4: op = 0b11, any other inputs: every other port at its largest value. -/
theorem test_reserved_any_ports :
    (next? (step { used small with pending := some ⟨0b11#2, 2 ^ 64 - 1, 48, [true]⟩ })).map (·.out) =
      some { Outputs.noValue with err := some 5 } := by decide

/-! ### Script lines (30_encoding R73, R74) -/

/-- `t1 = STATUS32 h"A5" ++ b"1_0" ; x` -/
theorem test_read_line :
    readLine ['t', '1', ' ', '=', ' ', 'S', 'T', 'A', 'T', 'U', 'S', '3', '2', ' ', 'h', Char.ofNat 34, 'A', '5',
      Char.ofNat 34, ' ', '+', '+', ' ', 'b', Char.ofNat 34, '1', '_', '0', Char.ofNat 34, ' ', ';', ' ', 'x'] =
    some ⟨['t', '1'], .status32 [.literal (bitsOf 8 0xA5), .literal [true, false]]⟩ := by decide

/-- `r.frame[0:24)`, `r.payload` and `-0x1f`. -/
theorem test_read_operands :
    readBitsOperand ['r', '.', 'f', 'r', 'a', 'm', 'e', '[', '0', ':', '2', '4', ')', ' ', '+', '+', ' ', 'r', '.', 'p', 'a',
      'y', 'l', 'o', 'a', 'd'] = some [.frameSlice ['r'] 0 24, .payload ['r']] ∧
    readInt ['-', '0', 'x', '1', 'f'] = some ⟨true, 31⟩ := by decide

/-- 30_encoding R73: a leading `-` is allowed only when `CMD_SIGNED` is true, before a 0 too. -/
theorem test_minus_zero : readInt ['-', '0'] = some ⟨true, 0⟩ ∧ cmdWord small ⟨true, 0⟩ = .refused .negativeCommand ∧
    cmdWord signed ⟨true, 0⟩ = .next 0 := ⟨by decide, rfl, rfl⟩

/-- `r.sval` of a result bound to `r`, and a text that names no port. -/
theorem test_read_result_text : readText [(['r'], drive (.ok (.conv 7)))] ['r', '.', 's', 'v', 'a', 'l'] = .next (.word 7) ∧
    readText [(['r'], drive (.ok (.conv 7)))] ['r', '.', 'e', 'r'] = .refused .unreadableText := ⟨rfl, rfl⟩

/-- P4, t1: the frame declares one byte, 0xA5, and the result is -91. -/
theorem test_status32 :
    (next? (runLine ⟨['t'], .status32 [.literal (bitsOf 48 0x52511F0001A5)]⟩ ([], State.instantiate small))).map
      (fun es => es.2.out.sval) = some (some 0xFFFFFFA5) := by decide

/-- P2 on a strict instance: reading the payload of a transaction that ended in an error is a fault (92_eei_decisions
D16). -/
theorem test_payload_after_error : atomBits [(['s'], drive (.err .payloadShort))] (.payload ['s']) =
    .fault (.portCarriesNoValue .outLen) := rfl

/-! ### Witnesses: the hypotheses of each statement, met together, at the ends of its ranges -/

theorem witness_OpSelectsOperationAndOperand : 2 ^ 64 - 1 < 2 ^ small.cmdInW ∧ 48 ≤ small.maxInBits ∧
    (bitsOf 48 5).length ≤ small.maxInBits ∧ 48 ≤ (bitsOf 48 5).length ∧
    decode small ⟨0b10#2, 2 ^ 64 - 1, 1, [true, false]⟩ = .ok (.toSigned32 [true]) :=
  ⟨by decide, by decide, by decide, by decide, rfl⟩

theorem witness_DecodeOfEncodeIsIdentity : small.Legal ∧ (Instr.buildRequest (2 ^ 64 - 1)).wf small = true ∧
    (Instr.parseStatus (bitsOf 48 1)).wf small = true ∧ (Instr.toSigned32 (bitsOf 48 1)).wf small = true := by decide

/-- Two PARSE_STATUS descriptors that differ in `cmd` and above `in_len`, and two BUILD_REQUEST ones that differ in
everything but `cmd`, each port at an end of its range. -/
theorem witness_UnreadPortsDoNotMatter :
    0 < 2 ^ small.cmdInW ∧ 2 ^ 64 - 1 < 2 ^ small.cmdInW ∧ 1 ≤ small.maxInBits ∧ 48 ≤ small.maxInBits ∧
    [true, true].length ≤ small.maxInBits ∧ [true].length ≤ small.maxInBits ∧
    (∀ i < 1, [true, true][i]? = [true][i]?) ∧ 1 ≤ [true, true].length ∧ 1 ≤ [true].length ∧
    (next? (step { used small with pending := some ⟨0b01#2, 0, 1, [true, true]⟩ })).isSome ∧
    next? (step { used small with pending := some ⟨0b01#2, 0, 1, [true, true]⟩ }) =
      next? (step { used small with pending := some ⟨0b01#2, 2 ^ 64 - 1, 1, [true]⟩ }) ∧
    (next? (step { used small with pending := some ⟨0b00#2, 1, 48, []⟩ })).isSome ∧
    next? (step { used small with pending := some ⟨0b00#2, 1, 48, []⟩ }) =
      next? (step { used small with pending := some ⟨0b00#2, 1, 0, [true]⟩ }) := by decide

theorem witness_StepRunsDecodedOperation :
    unpack small (encode small (.toSigned32 [true])) = .ok ⟨0b10#2, 0, 1, true :: List.replicate 7 false⟩ ∧
    decodeBytes small (encode small (.toSigned32 [true])) = .ok (.toSigned32 [true]) := ⟨rfl, rfl⟩

theorem witness_IdleStepChangesNothing : (used small).pending = none ∧ step (used small) = .next (used small) := ⟨rfl, rfl⟩

/-- Both clauses one above the limit, for BUILD_REQUEST, and the limit itself let in. -/
theorem witness_OverlongInputRefused : (used small).pending = none ∧ small.maxInBits < 49 ∧ 48 ≤ small.maxInBits ∧
    small.maxInBits < (bitsOf 49 0).length ∧ (next? (present ⟨0b00#2, 0, 48, bitsOf 49 0⟩ (used small))).isNone ∧
    (next? (present ⟨0b00#2, 0, 49, []⟩ (used small))).isNone ∧
    (next? (present ⟨0b01#2, 0, 48, bitsOf 48 0⟩ (used small))).isSome := by decide

theorem witness_OverlapRefused : ({ used small with pending := some ⟨0b11#2, 0, 0, []⟩ } : State).pending =
    some ⟨0b11#2, 0, 0, []⟩ := rfl

/-- Also for the other statements about a presented transaction: PresentedTransactionEnds, TransactionsAreStateless,
CheckedHostReadsWholeOutcome, OutcomeIsFunctionOfParametersAndInputs; one descriptor per operation. -/
theorem witness_presented_transactions :
    (next? (present ⟨0b00#2, 0x1F, 0, []⟩ (used small))).isSome ∧ (next? (present ⟨0b01#2, 0, 1, [true]⟩ (used small))).isSome ∧
    (next? (present ⟨0b10#2, 0, 1, [true]⟩ (used small))).isSome ∧ (next? (present ⟨0b11#2, 0, 0, []⟩ (used small))).isSome ∧
    (used small).params = (State.instantiate small).params ∧ (used small).pending = none ∧
    (next? (present ⟨0b10#2, 0, 1, [true]⟩ (State.instantiate small))).isSome ∧
    ((next? (present ⟨0b10#2, 0, 1, [true]⟩ (used small))).bind fun t => next? (step t)).isSome ∧
    ((next? (present ⟨0b10#2, 0, 1, [true]⟩ (used small))).bind fun t => next? (step t)) =
      ((next? (present ⟨0b10#2, 0, 1, [true]⟩ (State.instantiate small))).bind fun t => next? (step t)) := by decide

theorem witness_CommandNumberReadsPort : small.Legal ∧ signed.Legal ∧ 2 ^ 64 - 1 < 2 ^ small.cmdInW ∧
    small.cmdSigned = false ∧ signed.cmdSigned = true ∧ commandNumber small (2 ^ 64 - 1) = 2 ^ 64 - 1 ∧
    commandNumber signed (2 ^ 64 - 1) = -1 ∧ commandNumber signed (2 ^ 63 - 1) = 2 ^ 63 - 1 := by decide

theorem witness_BuildRequestFrame : small.cksumOrCarry = false ∧ commandNumber small (2 ^ 32 - 1) < 2 ^ 32 ∧
    commandNumber signed (2 ^ 63) < 2 ^ 32 ∧
    (outAfter small (.buildRequest (2 ^ 32 - 1))).map (·.reqFrame) = some (some 0x5251FFA2) := by decide

theorem witness_BuildRequestLiteralPacking : literal.cksumOrCarry = true ∧ commandNumber literal 0xFE < 2 ^ 32 ∧
    (outAfter literal (.buildRequest 0x5D)).map (·.reqFrame) = some (some 0x52515D00) ∧
    (outAfter literal (.buildRequest 0xFE)).map (·.reqFrame) = some (some 0x5251FFA1) := by decide

theorem witness_CmdOversizeExactlyAbove32Bits :
    (outAfter small (.buildRequest (2 ^ 32))).map (·.err) = some (some 1) ∧
    (outAfter small (.buildRequest (2 ^ 32 - 1))).map (·.err) = some (some 0) ∧
    (outAfter signed (.buildRequest (2 ^ 63))).map (·.err) = some (some 0) ∧
    ({ small with cmdInW := 32 } : Params).cmdInW ≤ 32 ∧
    (outAfter { small with cmdInW := 32 } (.buildRequest (2 ^ 32 - 1))).map (·.err) = some (some 0) := by decide

theorem witness_FrameDependsOnLowByteOnly : commandNumber small 0x15E < 2 ^ 32 ∧
    commandNumber small 0x15E % 256 = commandNumber small 0x5E % 256 := by decide

theorem witness_ReceiverRecomputesChecksum :
    (outAfter small (.buildRequest 0x5E)).map (·.reqFrame) = some (some 0x52515E01) ∧
    (outAfter literal (.buildRequest 0x5E)).map (·.reqFrame) = some (some 0x52515F01) ∧
    (0x52515F01 : Word32).extractLsb' 8 8 ≠ BitVec.ofNat 8 (commandByte (commandNumber literal 0x5E)) := by decide

theorem witness_FrameShorterThanFixedPart : (bitsOf 39 0).length < small.payPos ∧ small.strictLen = false ∧
    strict.strictLen = true ∧ (bitsOf 39 0).length < strict.payPos ∧ (bitsOf 31 0).length < layoutC.payPos := by decide

/-- N = 1 with 48, 47 and 40 bits: complete, short by one bit, and payload wholly missing. -/
theorem witness_PayloadSliceAndShortRead : small.Legal ∧ small.payPos ≤ (bitsOf 40 1).length ∧
    (outAfter small (.parseStatus (bitsOf 48 0x1A5))).map (·.shortRead) = some (some false) ∧
    (outAfter small (.parseStatus (bitsOf 47 0xD2))).map (·.shortRead) = some (some true) ∧
    (outAfter strict (.parseStatus (bitsOf 40 1))).map (·.err) = some (some 4) ∧
    (outAfter strict (.parseStatus (bitsOf 48 0x1A5))).map (·.err) = some (some 0) := by decide

theorem witness_ResponseRoundTrip : layoutB.Legal ∧ 2 < 2 ^ layoutB.lenFieldW ∧
    (bitsOf 8 3).length = layoutB.payPos - 24 - layoutB.lenFieldW ∧ (bitsOf 16 1).length = 8 * 2 := by decide

/-- Layout B: frames that differ at positions 23 and 39 only. -/
theorem witness_HeaderAndFillerNotDecoded : layoutB.Legal ∧ (bitsOf 48 0x1000100).length = (bitsOf 48 0).length ∧
    (∀ i < 49, (24 ≤ i ∧ i < 24 + layoutB.lenFieldW) ∨ layoutB.payPos ≤ i → (bitsOf 48 0x1000100)[i]? = (bitsOf 48 0)[i]?) ∧
    bitsOf 48 0x1000100 ≠ bitsOf 48 0 := by decide

/-- N = 0: one trailing byte; and a frame that is exactly as long as its fixed part. -/
theorem witness_TrailingBitsNotDecoded : small.Legal ∧ small.payPos ≤ (bitsOf 48 0xA5).length ∧
    small.payPos ≤ (bitsOf 40 0).length ∧
    outAfter small (.parseStatus (bitsOf 48 0xA5)) = outAfter small (.parseStatus (bitsOf 40 0)) := by decide

theorem witness_LenientParserNeverRaises : small.strictLen = false ∧
    (outAfter small (.parseStatus [])).map (·.err) = some (some 0) := by decide

/-- Both statements about any next state: lengths 39, 40 (N = 0 and N = 1) and 48, lenient and strict. -/
theorem witness_ShortReadExactly_StatusArrayBounds : small.Legal ∧ strict.Legal ∧
    (outAfter small (.parseStatus (bitsOf 39 0))).map (·.shortRead) = some (some true) ∧
    (outAfter small (.parseStatus (bitsOf 40 0))).map (fun o => (o.outLen, o.shortRead)) = some (some 0, some false) ∧
    (outAfter small (.parseStatus (bitsOf 40 1))).map (·.shortRead) = some (some true) ∧
    (outAfter strict (.parseStatus (bitsOf 48 0x1A5))).map (fun o => (o.outLen, o.shortRead)) = some (some 8, some false) := by
  decide

/-- Also for TwoStagesEqualSignExtension and SignedResultRange: widths 0, 1 and 32. -/
theorem witness_TwoStageConversion : ([] : BitStr).length ≤ 32 ∧ [true].length ≤ 32 ∧
    (bitsOf 32 (2 ^ 31)).length ≤ 32 ∧ (outAfter small (.toSigned32 [])).map (·.sval) = some (some 0) ∧
    (outAfter small (.toSigned32 [true])).map (·.sval) = some (some 0xFFFFFFFF) ∧
    (outAfter small (.toSigned32 (bitsOf 32 (2 ^ 31)))).map (·.sval) = some (some 0x80000000) ∧
    (outAfter small (.toSigned32 (bitsOf 32 (2 ^ 31 - 1)))).map (·.sval) = some (some 0x7FFFFFFF) := by decide

theorem witness_WidthMattersForLeadingOne : [true].length + 1 + 30 ≤ 32 ∧ (bitsOf 30 0).length + 2 ≤ 32 ∧
    (outAfter small (.toSigned32 [true])).map (·.sval) ≠ (outAfter small (.toSigned32 [false, true])).map (·.sval) := by decide

theorem witness_ArrayOversizeRaised : 32 < (bitsOf 33 0).length ∧ 32 < (bitsOf 48 0).length := by decide

theorem witness_ReservedOperationRaises :
    ({ used small with pending := some ⟨0b11#2, 2 ^ 64 - 1, 48, []⟩ } : State).pending = some ⟨0b11#2, 2 ^ 64 - 1, 48, []⟩ ∧
    2 ^ 64 - 1 < 2 ^ small.cmdInW ∧ 48 ≤ small.maxInBits ∧ ([] : BitStr).length ≤ small.maxInBits := by decide

theorem witness_ErrorDrivesNoData : (outAfter small (.toSigned32 (bitsOf 33 0))).map (·.err) = some (some 2) ∧
    (outAfter strict (.parseStatus [])).map (·.err) = some (some 3) ∧ (2 : BitVec 3) ≠ 0 := by decide

/-- N = 4 and N = 5, each frame exactly complete (PAY_POS + 8N bits). -/
theorem witness_CompleteFrameConvertsUpToFourBytes :
    val (slice (bitsOf 72 (4 * 2 ^ 32)) 24 40) = 4 ∧ 40 + 8 * 4 ≤ (bitsOf 72 (4 * 2 ^ 32)).length ∧
    val (slice (bitsOf 80 (5 * 2 ^ 40)) 24 40) = 5 ∧ 40 + 8 * 5 ≤ (bitsOf 80 (5 * 2 ^ 40)).length := by decide

theorem witness_Status32Expansion : (used strict).pending = none ∧ (bitsOf 48 0x1A5).length ≤ strict.maxInBits ∧
    (outAfter strict (.parseStatus (bitsOf 48 0x2A5))).map (·.err) = some (some 4) ∧
    (outAfter strict (.parseStatus (bitsOf 48 0x1A5))).map (·.err) = some (some 0) := by decide

theorem witness_ScriptIntegerReachesBuilder : small.Legal ∧ signed.Legal ∧ small.cmdSigned = false ∧
    signed.cmdSigned = true ∧ 2 ^ 64 - 1 < 2 ^ small.cmdInW ∧
    next? (cmdWord small ⟨false, 2 ^ 64 - 1⟩) = some (2 ^ 64 - 1) ∧ next? (cmdWord small ⟨true, 1⟩) = none ∧
    -(2 ^ (signed.cmdInW - 1)) ≤ (⟨true, 2 ^ 63⟩ : ScriptInt).value ∧
    (⟨false, 2 ^ 63 - 1⟩ : ScriptInt).value < 2 ^ (signed.cmdInW - 1) ∧
    next? (cmdWord signed ⟨true, 2 ^ 63⟩) = some (2 ^ 63) ∧
    next? (cmdWord signed ⟨false, 2 ^ 63 - 1⟩) = some (2 ^ 63 - 1) := by decide

theorem witness_ResultTextReadsNamedPort : readName ['r', '_', '1'] = some ['r', '_', '1'] ∧
    readResultText ['r', '_', '1', '.', 'n', '_', 'f', 'i', 'e', 'l', 'd'] = some (['r', '_', '1'], .nField) := by decide

/-- Two instances: one runs a transaction in flight while the other is reset, in either order. -/
theorem witness_InstancesAreIndependent :
    (next? (andThen (actAt 0 .run [{ used small with pending := some ⟨0b11#2, 0, 0, []⟩ }, used strict]) (actAt 1 .reset))) =
      some [{ used small with out := drive (.err .illegalOp) }, State.instantiate strict] := by decide

theorem witness_FreshInstanceMeetsInvariant : strict.Legal ∧ (State.instantiate strict).Inv :=
  ⟨by decide, by decide, .inl rfl⟩

/-- An instance that meets the invariant with an earlier outcome on its ports and a transaction in flight. -/
theorem witness_StepKeepsInvariant : ({ used small with pending := some ⟨0b00#2, 0x1F, 0, []⟩ } : State).Inv ∧
    (next? (step { used small with pending := some ⟨0b00#2, 0x1F, 0, []⟩ })).isSome :=
  ⟨⟨by decide, .inr (.inr (.inr (.inl ⟨rfl, rfl, rfl, rfl, rfl, rfl, rfl⟩)))⟩, by decide⟩

end Sys2Proof.Tests
end

section
/-! Settles O1: the recursive bit-string primitives agree with the positions and the weighted sum of 00_scope R11. -/

namespace Sys2Proof.Scope

/-- Inside the clamped range a slice carries the positions of the string it is cut from (00_scope R11). -/
theorem slice_getElem?_of_lt (s : BitStr) {a b i : Nat} (h : a + i < min b s.length) :
    (slice s a b)[i]? = s[a + i]? := by
  have inside : a + i < b := lt_of_lt_of_le h (min_le_left _ _)
  rw [slice_getElem?, if_pos inside]

/-- The weight of a bit counts the bits behind it, so prepending a bit keeps the weights of the others. -/
theorem val_eq_sum (s : BitStr) :
    val s = ∑ i : Fin s.length, (s[i]).toNat * 2 ^ (s.length - 1 - i) := by
  induction s with
  | nil => rfl
  | cons b t ih =>
    have weight (i : Fin t.length) : t.length - (i + 1) = t.length - 1 - i := by omega
    simp only [List.length_cons]
    rw [Fin.sum_univ_succ, val_cons, ih]
    simp [weight]

/-- Settles O1. -/
theorem bitStringPrimitives : Obligations.BitStringPrimitives :=
  ⟨fun s a b => ⟨slice_length s a b, fun _ inside => slice_getElem?_of_lt s inside⟩,
    val_eq_sum, fun w v => ⟨bitsOf_length w v, val_bitsOf w v⟩⟩

end Sys2Proof.Scope
end

section
/-!
Settles O45, O7, O8 and O12 (10_state): what an idle CORE does, what the interface refuses, that an earlier outcome
is not observable, and that the output ports carry nothing or one whole outcome of an operation.
-/

namespace Sys2Proof.CoreState
open Sys2Proof.Machine

/-! ### The interface -/

theorem step_of_idle {s : State} (idle : s.pending = none) : step s = .next s := by
  simp [step, idle]

theorem decode_of_inLen_gt {p : Params} {d : Descriptor} (long : p.maxInBits < d.inLen) :
    decode p d = .error .lengthAboveMax := by
  simp [decode, checkPorts, long]

theorem decode_of_inBits_gt {p : Params} {d : Descriptor} (fits : d.inLen ≤ p.maxInBits)
    (long : p.maxInBits < d.inBits.length) : decode p d = .error .bitStringTooLong := by
  simp [decode, checkPorts, long, Nat.not_lt.mpr fits]

theorem present_of_decode_error {s : State} {d : Descriptor} {e : InterfaceError} (idle : s.pending = none)
    (bad : decode s.params d = .error e) : present d s = .refused (.atInterface e) := by
  simp [present, idle, bad]

theorem step_of_decode_error {s : State} {d : Descriptor} {e : InterfaceError} (bad : decode s.params d = .error e) :
    step { s with pending := some d } = .refused (.atInterface e) := by
  simp [step, bad]

/-- Presenting clears the output ports, so of an idle CORE only the parameters are left to tell (10_state R23). -/
theorem present_eq_present_instantiate {s : State} (idle : s.pending = none) (d : Descriptor) :
    present d s = present d (State.instantiate s.params) := by
  have fresh_idle : (State.instantiate s.params).pending = none := rfl
  cases decoded : decode s.params d with
  | error e => rw [present_of_decode_error idle decoded, present_of_decode_error fresh_idle decoded]
  | ok i =>
    have presented : present d s = .next { s with pending := some d, out := Outputs.noValue } :=
      present_eq_next.mpr ⟨idle, ⟨i, decoded⟩, rfl⟩
    rw [presented]
    exact (present_eq_next.mpr ⟨fresh_idle, ⟨i, decoded⟩, rfl⟩).symm

theorem issue_eq_issue_instantiate {s : State} (idle : s.pending = none) (d : Descriptor) :
    issue d s = issue d (State.instantiate s.params) := by
  rw [issue, issue, present_eq_present_instantiate idle]

/-! ### The frame of BUILD_REQUEST, the length field and the array of PARSE_STATUS -/

theorem commandByte_lt (n : Int) : commandByte n < 2 ^ 8 := by
  unfold commandByte
  omega

/-- The command byte lies below the tag, and so does the sum even where its carry is kept (40_request_builder R84). -/
theorem requestFrame_tag (p : Params) {cb : Nat} (byte : cb < 2 ^ 8) :
    (requestFrame p cb).extractLsb' 16 16 = 0x5251#16 := by
  have below {lo : Nat} (small : lo < 2 ^ 16) : ((tag <<< 8 ||| cb) <<< 8 ||| lo) >>> 16 = 0x5251 := by
    have cb_gone : cb >>> 8 = 0 := Nat.shiftRight_eq_zero _ _ byte
    have lo_gone : lo >>> 16 = 0 := Nat.shiftRight_eq_zero _ _ small
    calc ((tag <<< 8 ||| cb) <<< 8 ||| lo) >>> 16
        = (tag <<< 8 ||| cb) <<< 8 >>> 8 >>> 8 ||| lo >>> 16 := by
          rw [Nat.shiftRight_or_distrib, ← Nat.shiftRight_add]
      _ = tag := by
          rw [Nat.shiftLeft_shiftRight, Nat.shiftRight_or_distrib, Nat.shiftLeft_shiftRight, cb_gone, lo_gone,
            Nat.or_zero, Nat.or_zero]
      _ = 0x5251 := rfl
  have sum_lt : (if p.cksumOrCarry then checksumSum cb else checksumSum cb % 256) < 2 ^ 16 := by
    unfold checksumSum tagHi tagLo
    split <;> omega
  have upper := below sum_lt
  apply BitVec.eq_of_toNat_eq
  simp only [requestFrame, BitVec.extractLsb'_toNat, BitVec.toNat_ofNat, Nat.shiftRight_eq_div_pow] at upper ⊢
  omega

theorem lengthField_lt (p : Params) (frame : BitStr) : lengthField p frame < 2 ^ p.lenFieldW := by
  refine lt_of_lt_of_le (val_lt _) (Nat.pow_le_pow_right (by decide) ?_)
  rw [slice_length]
  omega

/-- The 16-bit port holds the length field of every layout (10_state R28). -/
theorem nField_toNat {p : Params} (legal : p.Legal) {n : Nat} (field : n < 2 ^ p.lenFieldW) :
    (BitVec.ofNat 16 n).toNat = n := by
  obtain ⟨-, width, -⟩ := legal
  have width_le : p.lenFieldW ≤ 16 := by omega
  exact Nat.mod_eq_of_lt (lt_of_lt_of_le field (Nat.pow_le_pow_right (by decide) width_le))

theorem payloadOf_length_le (p : Params) (frame : BitStr) (n : Nat) : (payloadOf p frame n).length ≤ 8 * n := by
  rw [payloadOf, slice_length]
  omega

theorem payloadOf_length_le_rest (p : Params) (frame : BitStr) (n : Nat) :
    (payloadOf p frame n).length ≤ frame.length - p.payPos := by
  rw [payloadOf, slice_length]
  omega

/-! ### Each outcome that an operation drives is coherent -/

theorem drive_err_coherent {p : Params} {c : ErrCode} (strict : c = .hdrShort ∨ c = .payloadShort → p.strictLen = true) :
    (drive (.err c)).Coherent p :=
  .inr (.inr (.inr (.inr ⟨⟨c, rfl, strict⟩, rfl, rfl, rfl, rfl, rfl, rfl⟩)))

theorem drive_build_coherent (p : Params) {f : Word32} (tagged : f.extractLsb' 16 16 = 0x5251#16) :
    (drive (.ok (.build f))).Coherent p :=
  .inr (.inl ⟨rfl, ⟨f, rfl, tagged⟩, rfl, rfl, rfl, rfl, rfl⟩)

theorem drive_conv_coherent (p : Params) (v : Word32) : (drive (.ok (.conv v))).Coherent p :=
  .inr (.inr (.inr (.inl ⟨rfl, rfl, rfl, rfl, rfl, rfl, rfl⟩)))

/-- A frame shorter than its fixed part, without the strict check (41_response_parser R101). -/
theorem drive_parse_noField_coherent {p : Params} (lenient : p.strictLen = false) :
    (drive (.ok (.parse none [] true))).Coherent p :=
  .inr (.inr (.inl ⟨rfl, rfl, rfl, [], true, rfl, rfl, rfl, Nat.zero_le _, by simp [lenient], rfl, rfl⟩))

/-- A frame with its fixed part (41_response_parser R102 to R105, R115). -/
theorem drive_parse_field_coherent {p : Params} (legal : p.Legal) {n : Nat} {array : BitStr}
    (field : n < 2 ^ p.lenFieldW) (declared : array.length ≤ 8 * n)
    (within : array.length ≤ p.maxInBits - p.payPos) (strict : p.strictLen = true → payloadShort array n = false) :
    (drive (.ok (.parse (some (BitVec.ofNat 16 n)) array (payloadShort array n)))).Coherent p := by
  refine .inr (.inr (.inl ⟨rfl, rfl, rfl, array, _, rfl, rfl, rfl, within, strict, ?_⟩))
  simp only [drive_parse_nField, nField_toNat legal field]
  exact ⟨field, declared, by simp [payloadShort]⟩

/-! ### Each operation ends in a coherent outcome -/

theorem execBuildRequest_coherent (cmd : Nat) (s : State) :
    ∃ o, execBuildRequest cmd s = .next (s.conclude o) ∧ (drive o).Coherent s.params := by
  obtain ⟨-, oversize⟩ | ⟨-, built⟩ := execBuildRequest_cases cmd s
  · exact ⟨_, oversize, drive_err_coherent (by simp)⟩
  · exact ⟨_, built, drive_build_coherent _ (requestFrame_tag _ (commandByte_lt _))⟩

theorem execParseStatus_coherent {frame : BitStr} {s : State} (legal : s.params.Legal)
    (fits : frame.length ≤ s.params.maxInBits) :
    ∃ o, execParseStatus frame s = .next (s.conclude o) ∧ (drive o).Coherent s.params := by
  obtain ⟨-, strict, h⟩ | ⟨-, lenient, h⟩ | ⟨-, strict, -, h⟩ | ⟨-, complete, h⟩ := execParseStatus_cases frame s
  · exact ⟨_, h, drive_err_coherent fun _ => strict⟩
  · exact ⟨_, h, drive_parse_noField_coherent lenient⟩
  · exact ⟨_, h, drive_err_coherent fun _ => strict⟩
  · have within := (payloadOf_length_le_rest s.params frame (lengthField s.params frame)).trans
      (Nat.sub_le_sub_right fits _)
    exact ⟨_, h, drive_parse_field_coherent legal (lengthField_lt _ _) (payloadOf_length_le _ _ _) within complete⟩

theorem execToSigned32_coherent (array : BitStr) (s : State) :
    ∃ o, execToSigned32 array s = .next (s.conclude o) ∧ (drive o).Coherent s.params := by
  obtain ⟨-, oversize⟩ | ⟨-, converted⟩ := execToSigned32_cases array s
  · exact ⟨_, oversize, drive_err_coherent (by simp)⟩
  · exact ⟨_, converted, drive_conv_coherent _ _⟩

/-- `exec_eq_conclude` with what the outcome is, for an operation that the ports can carry under legal parameters. -/
theorem exec_coherent {i : Instr} {s : State} (legal : s.params.Legal) (wf : i.wf s.params = true) :
    ∃ o, exec i s = .next (s.conclude o) ∧ (drive o).Coherent s.params := by
  cases i with
  | buildRequest cmd => exact execBuildRequest_coherent cmd s
  | parseStatus frame => exact execParseStatus_coherent legal (by simpa [Instr.wf] using wf)
  | toSigned32 array => exact execToSigned32_coherent array s
  | reservedOp3 => exact ⟨_, execReservedOp3_eq s, drive_err_coherent (by simp)⟩

/-! ### The invariant, kept by each event -/

theorem instantiate_inv {p : Params} (legal : p.Legal) : (State.instantiate p).Inv := ⟨legal, .inl rfl⟩

theorem step_keeps_inv {s t : State} (inv : s.Inv) (h : step s = .next t) : t.Inv ∧ t.params = s.params := by
  obtain ⟨-, idle⟩ | ⟨d, e, -, -, refused⟩ | ⟨d, i, -, decoded, runs⟩ := step_cases s
  · obtain rfl : s = t := by simpa [idle] using h
    exact ⟨inv, rfl⟩
  · simp [refused] at h
  · obtain ⟨legal, -⟩ := inv
    obtain ⟨o, ends, coherent⟩ := exec_coherent legal (decode_wf decoded)
    obtain rfl : s.conclude o = t := by simpa [runs, ends] using h
    exact ⟨⟨legal, coherent⟩, rfl⟩

theorem present_keeps_inv {s t : State} {d : Descriptor} (inv : s.Inv) (h : present d s = .next t) :
    t.Inv ∧ t.params = s.params := by
  obtain ⟨legal, -⟩ := inv
  obtain ⟨-, -, rfl⟩ := present_eq_next.mp h
  exact ⟨⟨legal, .inl rfl⟩, rfl⟩

/-! ### The obligations -/

/-- Settles O45: an operation ends in one coherent outcome; presenting and reset leave no output with a value. -/
theorem stepKeepsInvariant : Obligations.StepKeepsInvariant := by
  intro s t inv
  have ⟨legal, _⟩ := inv
  exact ⟨step_keeps_inv inv, fun _ => present_keeps_inv inv, instantiate_inv legal, rfl⟩

/-- Settles O7. -/
theorem idleStepChangesNothing : Obligations.IdleStepChangesNothing := fun _ => step_of_idle

/-- Settles O8: decoding refuses the descriptor before `op` is looked at, for `present` and `step` alike. -/
theorem overlongInputRefused : Obligations.OverlongInputRefused := by
  intro s d
  constructor
  · intro long
    have bad := decode_of_inLen_gt long
    exact ⟨(present_of_decode_error · bad), step_of_decode_error bad⟩
  · intro fits long
    have bad := decode_of_inBits_gt fits long
    exact ⟨(present_of_decode_error · bad), step_of_decode_error bad⟩

/-- Settles O12: issuing a descriptor cannot tell an idle CORE from a new one with its parameters. -/
theorem outcomeIsFunctionOfParametersAndInputs : Obligations.OutcomeIsFunctionOfParametersAndInputs := by
  intro s d idle
  rw [transact, issue_eq_issue_instantiate idle]

end Sys2Proof.CoreState
end

section
/-!
Settles O11, O22 and O43 (20_memory): a transaction reads no earlier one, the frame's string and buffer carry its word
most significant bit first, and COREs side by side share nothing.
-/

namespace Sys2Proof.Memory
open Sys2Proof.Machine

/-! ### A presented transaction (20_memory R47, R48) -/

/-- Of the state before, presenting keeps the parameters alone. -/
theorem present_eq_of_params_eq {s t s' t' : State} {d : Descriptor} (params : s.params = t.params)
    (hs : present d s = .next s') (ht : present d t = .next t') : s' = t' := by
  obtain ⟨-, -, rfl⟩ := present_eq_next.mp hs
  obtain ⟨-, -, rfl⟩ := present_eq_next.mp ht
  simp [params]

/-- A descriptor that was let in decodes, so its step is an operation, and every operation ends. -/
theorem step_of_present {s t : State} {d : Descriptor} (presented : present d s = .next t) :
    ∃ o, step t = .next (t.conclude o) := by
  obtain ⟨-, ⟨i, decoded⟩, rfl⟩ := present_eq_next.mp presented
  obtain ⟨o, ends⟩ := exec_eq_conclude i { s with pending := some d, out := Outputs.noValue }
  exact ⟨o, by simpa [step, decoded] using ends⟩

/-- Settles O11: the two presented states are one state. -/
theorem transactionsAreStateless : Obligations.TransactionsAreStateless := by
  intro s t s' t' d params hs ht
  obtain rfl := present_eq_of_params_eq params hs ht
  obtain ⟨o, ends⟩ := step_of_present hs
  exact ⟨_, ends, ends⟩

/-! ### The string and the buffer of a frame word (20_memory R41, R42) -/

theorem bitsOf_getElem? {w v i : Nat} (inside : i < w) : (bitsOf w v)[i]? = some (v.testBit (w - 1 - i)) := by
  induction w generalizing i with
  | zero => exact absurd inside (Nat.not_lt_zero i)
  | succ w ih =>
    cases i with
    | zero => rfl
    | succ i =>
      have place : w + 1 - 1 - (i + 1) = w - 1 - i := by omega
      rw [bitsOf, List.getElem?_cons_succ, ih (by omega), place]

/-- A field of a word's string is the string of the field. -/
theorem slice_bitsOf {w v a b : Nat} (ordered : a ≤ b) (fits : b ≤ w) :
    slice (bitsOf w v) a b = bitsOf (b - a) (v / 2 ^ (w - b)) := by
  refine List.ext_getElem? fun i => ?_
  by_cases inside : i < b - a
  · have place : b - a - 1 - i + (w - b) = w - 1 - (a + i) := by omega
    rw [slice_getElem?, if_pos (by omega), bitsOf_getElem? (by omega), bitsOf_getElem? inside,
      Nat.testBit_div_two_pow, place]
  · have past : (bitsOf (b - a) (v / 2 ^ (w - b))).length ≤ i := by
      rw [bitsOf_length]
      omega
    rw [slice_getElem?, if_neg (by omega), List.getElem?_eq_none past]

/-- Positions of the string, read as a number, are the bits of the word counted from its other end. -/
theorem val_slice_bitsOf {w v a b : Nat} (ordered : a < b) (fits : b ≤ w) :
    val (slice (bitsOf w v) a b) = wordField v (w - 1 - a) (w - b) := by
  have width : w - 1 - a - (w - b) + 1 = b - a := by omega
  rw [slice_bitsOf ordered.le fits, val_bitsOf, wordField, width]

@[simp] theorem frameString_length (f : Word32) : (frameString f).length = 32 := bitsOf_length _ _

theorem frameString_getElem? (f : Word32) {i : Nat} (inside : i < 32) :
    (frameString f)[i]? = some (f.getLsbD (31 - i)) :=
  bitsOf_getElem? inside

theorem frameBuffer_getElem? (f : Word32) {k : Nat} (inside : k < 4) :
    (frameBuffer f)[k]? = some (BitVec.ofNat 8 (wordField f.toNat (31 - 8 * k) (24 - 8 * k))) := by
  interval_cases k <;> rfl

theorem val_frameByte_frameString (f : Word32) {k : Nat} (inside : k < 4) :
    val (frameByte (frameString f) k) = wordField f.toNat (31 - 8 * k) (24 - 8 * k) := by
  have low : 32 - (8 * k + 8) = 24 - 8 * k := by omega
  rw [frameByte, frameString, reqBits, val_slice_bitsOf (by omega) (by omega), low]

/-- A byte of the string is a number that a byte of the buffer holds. -/
theorem val_frameByte_lt (s : BitStr) (k : Nat) : val (frameByte s k) < 2 ^ 8 := by
  refine lt_of_lt_of_le (val_lt _) (Nat.pow_le_pow_right (by decide) ?_)
  rw [frameByte, slice_length]
  omega

theorem frameBuffer_toNat (f : Word32) {k : Nat} (inside : k < 4) :
    ((frameBuffer f)[k]?).map BitVec.toNat = some (val (frameByte (frameString f) k)) := by
  rw [frameBuffer_getElem? f inside, ← val_frameByte_frameString f inside, Option.map_some, BitVec.toNat_ofNat,
    Nat.mod_eq_of_lt (val_frameByte_lt _ _)]

/-- Settles O22. -/
theorem requestFrameWireForms : Obligations.RequestFrameWireForms := fun f =>
  ⟨frameString_length f, fun _ => frameString_getElem? f, rfl, fun _ => frameBuffer_toNat f⟩

/-! ### COREs side by side (20_memory R51) -/

/-- Everything an action of one CORE can do to a list of them. -/
theorem actAt_eq_next {k : Nat} {a : Action} {sys sys' : List State} :
    actAt k a sys = .next sys' ↔ ∃ s s', sys[k]? = some s ∧ act a s = .next s' ∧ sys' = sys.set k s' := by
  unfold actAt
  cases sys[k]? with
  | none => simp
  | some s => simp [andThen_eq_next, eq_comm (a := sys')]

/-- An action of one CORE leaves every other one as it was. -/
theorem actAt_getElem?_of_ne {j k : Nat} {a : Action} {sys sys' : List State} (different : j ≠ k)
    (acted : actAt j a sys = .next sys') : sys'[k]? = sys[k]? := by
  obtain ⟨s, s', -, -, rfl⟩ := actAt_eq_next.mp acted
  exact List.getElem?_set_ne different

/-- Each action reads and writes its own place only, so it answers the same after the other one as before it. -/
theorem actAt_comm {j k : Nat} {a b : Action} {sys sys' : List State} (different : j ≠ k)
    (acted : andThen (actAt j a sys) (actAt k b) = .next sys') : andThen (actAt k b sys) (actAt j a) = .next sys' := by
  obtain ⟨mid, first, second⟩ := andThen_eq_next.mp acted
  have k_kept : mid[k]? = sys[k]? := actAt_getElem?_of_ne different first
  obtain ⟨s, s', at_j, act_j, rfl⟩ := actAt_eq_next.mp first
  obtain ⟨t, t', at_k, act_k, rfl⟩ := actAt_eq_next.mp second
  have k_first : actAt k b sys = .next (sys.set k t') := actAt_eq_next.mpr ⟨t, t', k_kept ▸ at_k, act_k, rfl⟩
  have j_kept : (sys.set k t')[j]? = some s := (actAt_getElem?_of_ne different.symm k_first).trans at_j
  exact andThen_eq_next.mpr
    ⟨_, k_first, actAt_eq_next.mpr ⟨s, s', j_kept, act_j, List.set_comm s' t' different⟩⟩

/-- Settles O43. -/
theorem instancesAreIndependent : Obligations.InstancesAreIndependent := fun _ _ _ _ _ _ different =>
  ⟨actAt_getElem?_of_ne different, actAt_comm different⟩

end Sys2Proof.Memory
end

section
/-!
Settles O3, O5, O2, O4, O6 and O36 (30_encoding R55 to R58): `op` selects the operation and the ports that it reads, and
a packed descriptor reads back as its ports.
-/

namespace Sys2Proof.Encoding
open Sys2Proof.Machine

/-! ### The ports an operation reads (30_encoding R56, R58) -/

/-- A string that holds `in_len` bits is cut off there (30_encoding R68, R69). -/
theorem readBits_of_inLen_le {d : Descriptor} (holds : d.inLen ≤ d.inBits.length) :
    readBits d = .ok (d.inBits.take d.inLen) :=
  readBits_eq_ok.mpr ⟨holds, rfl⟩

/-- The positions of `in_bits` at or above `in_len` are not read (10_state R30). -/
theorem readBits_congr {d e : Descriptor} (len : d.inLen = e.inLen)
    (bits : ∀ i < d.inLen, d.inBits[i]? = e.inBits[i]?)
    (hd : d.inLen ≤ d.inBits.length) (he : d.inLen ≤ e.inBits.length) : readBits d = readBits e := by
  have same : d.inBits.take d.inLen = e.inBits.take d.inLen := by
    refine List.ext_getElem? fun i => ?_
    rw [List.getElem?_take, List.getElem?_take]
    split
    · exact bits i ‹_›
    · rfl
  rw [readBits_of_inLen_le hd, readBits_of_inLen_le (len ▸ he), same, len]

/-- Two descriptors that agree on `op` and on the ports it reads select one operation. -/
theorem select_congr {d e : Descriptor} (op : d.op = e.op) (cmd : d.op = 0b00#2 → d.cmd = e.cmd)
    (bits : d.op = 0b01#2 ∨ d.op = 0b10#2 → readBits d = readBits e) : select d = select e := by
  unfold select
  rw [← op]
  split
  next build => rw [cmd build]
  next =>
    split
    next parse => rw [bits (.inl parse)]
    next =>
      split
      next convert => rw [bits (.inr convert)]
      next => rfl

/-- A descriptor selects an operation unless its `op` reads a string that ends before `in_len`. -/
theorem exists_select {d : Descriptor} (holds : d.op = 0b01#2 ∨ d.op = 0b10#2 → d.inLen ≤ d.inBits.length) :
    ∃ i, select d = .ok i := by
  unfold select
  split
  next => exact ⟨_, rfl⟩
  next =>
    split
    next parse => exact ⟨_, by rw [readBits_of_inLen_le (holds (.inl parse))]; rfl⟩
    next =>
      split
      next convert => exact ⟨_, by rw [readBits_of_inLen_le (holds (.inr convert))]; rfl⟩
      next => exact ⟨_, rfl⟩

/-! ### Packing and unpacking (log 5) -/

theorem add_two_pow_mul_lt {a x m n : Nat} (low : a < 2 ^ m) (high : x < 2 ^ n) : a + 2 ^ m * x < 2 ^ (m + n) := by
  rw [Nat.pow_add]
  exact Nat.add_mul_lt_mul_of_lt_of_lt low high

/-- A packed descriptor needs no more bits than its ports have. -/
theorem numOfPorts_lt {p : Params} {d : Descriptor} (cmd : d.cmd < 2 ^ p.cmdInW) (len : d.inLen < 2 ^ p.lenW) :
    numOfPorts p d < 2 ^ (fixedBits p + d.inBits.length) := by
  have whole := add_two_pow_mul_lt d.op.isLt (add_two_pow_mul_lt cmd (add_two_pow_mul_lt len (portVal_lt d.inBits)))
  have width : fixedBits p + d.inBits.length = 2 + (p.cmdInW + (p.lenW + d.inBits.length)) := by
    unfold fixedBits
    omega
  rwa [width]

/-- The ports of a packed descriptor are the ports that were packed, with zeros up to the width of the string. -/
theorem portsOfNum_numOfPorts {p : Params} {d : Descriptor} {w : Nat} (cmd : d.cmd < 2 ^ p.cmdInW)
    (len : d.inLen < 2 ^ p.lenW) (fits : d.inBits.length ≤ w) :
    portsOfNum p w (numOfPorts p d) =
      { d with inBits := d.inBits ++ List.replicate (w - d.inBits.length) false } := by
  have op_lt : d.op.toNat < 4 := d.op.isLt
  have op_low : BitVec.ofNat 2 (numOfPorts p d) = d.op := by
    apply BitVec.eq_of_toNat_eq
    rw [BitVec.toNat_ofNat]
    exact Laws.numOfPorts_mod_four p d
  have above_op : numOfPorts p d / 4 = d.cmd + 2 ^ p.cmdInW * (d.inLen + 2 ^ p.lenW * portVal d.inBits) := by
    unfold numOfPorts
    omega
  have above_cmd : numOfPorts p d / 4 / 2 ^ p.cmdInW = d.inLen + 2 ^ p.lenW * portVal d.inBits := by
    rw [above_op, Nat.add_mul_div_left _ _ (Nat.two_pow_pos _), Nat.div_eq_of_lt cmd, Nat.zero_add]
  have above_len : numOfPorts p d / 4 / 2 ^ p.cmdInW / 2 ^ p.lenW = portVal d.inBits := by
    rw [above_cmd, Nat.add_mul_div_left _ _ (Nat.two_pow_pos _), Nat.div_eq_of_lt len, Nat.zero_add]
  rw [portsOfNum, op_low, above_len, above_cmd, above_op, Nat.add_mul_mod_self_left, Nat.mod_eq_of_lt cmd,
    Nat.add_mul_mod_self_left, Nat.mod_eq_of_lt len, portBits_portVal _ _ fits]

/-- The bytes of a packed descriptor hold its bits, with less than one byte to spare. -/
theorem fixedBits_le_packedBytes (p : Params) (n : Nat) : fixedBits p + n ≤ 8 * packedBytes p n := by
  unfold packedBytes
  omega

theorem packedBytes_mono (p : Params) {m n : Nat} (le : m ≤ n) : packedBytes p m ≤ packedBytes p n :=
  Nat.div_le_div_right (by omega)

/-- Unpacking a packed descriptor gives its ports, with a few zeros behind the string. -/
theorem unpack_pack {p : Params} {d : Descriptor} (cmd : d.cmd < 2 ^ p.cmdInW) (len : d.inLen < 2 ^ p.lenW)
    (fits : d.inBits.length ≤ p.maxInBits) :
    ∃ zeros, d.inBits.length + zeros ≤ p.maxInBits ∧
      unpack p (pack p d) = .ok { d with inBits := d.inBits ++ List.replicate zeros false } := by
  have room := fixedBits_le_packedBytes p d.inBits.length
  have long_enough : ¬ 8 * packedBytes p d.inBits.length < fixedBits p := by omega
  have not_too_long : ¬ packedBytes p p.maxInBits < packedBytes p d.inBits.length :=
    Nat.not_lt.mpr (packedBytes_mono p fits)
  have number : numOfBytes (pack p d) = numOfPorts p d :=
    numOfBytes_bytesOfNum _ _ (lt_of_lt_of_le (numOfPorts_lt cmd len) (Nat.pow_le_pow_right (by decide) room))
  have length : (pack p d).length = packedBytes p d.inBits.length := bytesOfNum_length _ _
  refine ⟨min (8 * packedBytes p d.inBits.length - fixedBits p) p.maxInBits - d.inBits.length, by omega, ?_⟩
  rw [unpack, length, if_neg long_enough, if_neg not_too_long, number, portsOfNum_numOfPorts cmd len (by omega)]

/-! ### The encoder and the decoder -/

/-- The descriptor of a well-formed operation is one that the ports can carry, its string exactly `in_len` long. -/
theorem toDescriptor_fits {p : Params} {i : Instr} (wf : i.wf p = true) :
    (toDescriptor i).cmd < 2 ^ p.cmdInW ∧ (toDescriptor i).inBits.length ≤ p.maxInBits ∧
      (toDescriptor i).inLen = (toDescriptor i).inBits.length := by
  cases i with
  | buildRequest cmd => exact ⟨of_decide_eq_true wf, Nat.zero_le _, rfl⟩
  | parseStatus frame => exact ⟨Nat.two_pow_pos _, of_decide_eq_true wf, rfl⟩
  | toSigned32 array => exact ⟨Nat.two_pow_pos _, of_decide_eq_true wf, rfl⟩
  | reservedOp3 => exact ⟨Nat.two_pow_pos _, Nat.zero_le _, rfl⟩

/-- Bits behind a string that holds `in_len` bits do not change what a descriptor decodes to. -/
theorem decode_append_inBits {p : Params} {d : Descriptor} {tail : BitStr} (cmd : d.cmd < 2 ^ p.cmdInW)
    (holds : d.inLen ≤ d.inBits.length) (fits : d.inBits.length + tail.length ≤ p.maxInBits) :
    decode p { d with inBits := d.inBits ++ tail } = decode p d := by
  have longer : d.inLen ≤ (d.inBits ++ tail).length := by
    rw [List.length_append]
    omega
  have bits : ∀ i < d.inLen, (d.inBits ++ tail)[i]? = d.inBits[i]? := fun i below =>
    List.getElem?_append_left (lt_of_lt_of_le below holds)
  have same : select { d with inBits := d.inBits ++ tail } = select d :=
    select_congr rfl (fun _ => rfl) fun _ => readBits_congr rfl bits longer holds
  have len_fits : d.inLen ≤ p.maxInBits := by omega
  have longer_fits : (d.inBits ++ tail).length ≤ p.maxInBits := by rwa [List.length_append]
  calc decode p { d with inBits := d.inBits ++ tail }
      = select { d with inBits := d.inBits ++ tail } := decode_of_ports len_fits longer_fits cmd
    _ = select d := same
    _ = decode p d := (decode_of_ports len_fits (Nat.le_of_add_right_le fits) cmd).symm

/-- Settles O3: the bytes give back the operation's ports with zeros behind the string, and those are not read. -/
theorem decodeOfEncodeIsIdentity : Obligations.DecodeOfEncodeIsIdentity := by
  intro p i legal wf
  obtain ⟨-, -, -, -, -, lenW⟩ := legal
  obtain ⟨cmd, fits, len⟩ := toDescriptor_fits wf
  have len_lt : (toDescriptor i).inLen < 2 ^ p.lenW := by omega
  obtain ⟨zeros, padded, unpacked⟩ := unpack_pack cmd len_lt fits
  calc decodeBytes p (encode p i)
      = (unpack p (pack p (toDescriptor i))).bind (decode p) := rfl
    _ = decode p { toDescriptor i with inBits := (toDescriptor i).inBits ++ List.replicate zeros false } := by
        rw [unpacked]; rfl
    _ = decode p (toDescriptor i) := decode_append_inBits cmd len.le (by simpa using padded)
    _ = .ok i := decode_toDescriptor wf

/-! ### The step of a descriptor that the ports can carry -/

/-- Of the state before, an operation reads the parameters alone (10_state R23). -/
theorem exec_congr (i : Instr) {s t : State} (params : s.params = t.params) : exec i s = exec i t := by
  obtain ⟨p, pending, out⟩ := s
  obtain ⟨q, pending', out'⟩ := t
  obtain rfl : p = q := params
  cases i <;> rfl

/-- The step of a transaction in flight is the decoded operation; the output ports do not matter to it. -/
theorem step_of_decode {s t : State} {d : Descriptor} {i : Instr} (params : t.params = s.params)
    (pending : t.pending = some d) (decoded : decode s.params d = .ok i) : step t = exec i s := by
  rw [step, pending, params]
  simp only [decoded]
  exact exec_congr i params

/-- Settles O5: the two descriptors select one operation, and every operation ends. -/
theorem unreadPortsDoNotMatter : Obligations.UnreadPortsDoNotMatter := by
  intro s d e d_cmd d_len d_bits e_cmd e_len e_bits op cmd read
  have same : select d = select e := select_congr op cmd fun reads =>
    have ⟨len, bits, d_holds, e_holds⟩ := read reads
    readBits_congr len bits d_holds e_holds
  obtain ⟨i, selected⟩ : ∃ i, select d = .ok i := exists_select fun reads =>
    have ⟨_, _, d_holds, _⟩ := read reads
    d_holds
  have d_decoded : decode s.params d = .ok i := (decode_of_ports d_len d_bits d_cmd).trans selected
  have e_decoded : decode s.params e = .ok i := (decode_of_ports e_len e_bits e_cmd).trans (same ▸ selected)
  obtain ⟨o, ends⟩ := exec_eq_conclude i s
  refine ⟨s.conclude o, ?_⟩
  rw [← ends]
  exact ⟨step_of_decode rfl rfl d_decoded, step_of_decode rfl rfl e_decoded⟩

/-- Settles O2. -/
theorem opSelectsOperationAndOperand : Obligations.OpSelectsOperationAndOperand := by
  intro p cmd inLen bits cmd_fits len_fits bits_fit
  have decoded (op : BitVec 2) : decode p ⟨op, cmd, inLen, bits⟩ = select ⟨op, cmd, inLen, bits⟩ :=
    decode_of_ports len_fits bits_fit cmd_fits
  refine ⟨decoded _, fun holds => ?_, decoded _⟩
  have operand (op : BitVec 2) : readBits ⟨op, cmd, inLen, bits⟩ = .ok (bits.take inLen) := readBits_of_inLen_le holds
  constructor
  · rw [decoded, select, operand]
    rfl
  · rw [decoded, select, operand]
    rfl

/-- Settles O4: closed facts about six words. -/
theorem tableWordsDecode : Obligations.TableWordsDecode := by
  unfold Obligations.TableWordsDecode
  decide

/-- Settles O6. -/
theorem stepRunsDecodedOperation : Obligations.StepRunsDecodedOperation := by
  intro s bytes d i unpacked decoded pending
  have d_decoded : decode s.params d = .ok i := by
    rw [decodeBytes, unpacked] at decoded
    exact decoded
  exact ⟨step_of_decode rfl pending d_decoded, decode_wf d_decoded⟩

/-- Settles O36: the reserved code selects its operation before any other port is looked at. -/
theorem reservedOperationRaises : Obligations.ReservedOperationRaises := by
  intro s cmd inLen bits pending cmd_fits len_fits bits_fit
  have decoded : decode s.params ⟨0b11#2, cmd, inLen, bits⟩ = .ok .reservedOp3 :=
    decode_of_ports len_fits bits_fit cmd_fits
  exact ⟨(step_of_decode rfl pending decoded).trans (execReservedOp3_eq s), execReservedOp3_eq s⟩

end Sys2Proof.Encoding
end

section
/-!
Settles O16, O41 and O17 (30_encoding R59, R67, R73): the `cmd` port is read as the integer that a script writes to it,
and BUILD_REQUEST sends its low byte.
-/

namespace Sys2Proof.Encoding
open Sys2Proof.Machine

/-! ### The command number (30_encoding R67) -/

theorem commandNumber_of_unsigned {p : Params} (unsigned : p.cmdSigned = false) (cmd : Nat) :
    commandNumber p cmd = cmd := by
  simp [commandNumber, unsigned]

/-- The top bit of a port word says whether it is in the upper half of its range. -/
theorem wordField_top {w v : Nat} (fits : v < 2 ^ (w + 1)) : wordField v w w = if v < 2 ^ w then 0 else 1 := by
  rw [Nat.pow_succ] at fits
  rw [wordField, Nat.sub_self, Nat.zero_add, Nat.pow_one]
  split
  next lower => rw [Nat.div_eq_of_lt lower]
  next upper =>
    have one : v / 2 ^ w = 1 := Nat.div_eq_of_lt_le (by omega) (by omega)
    rw [one]

/-- The two's-complement reading is the balanced remainder of the port word. -/
theorem commandNumber_of_signed {p : Params} {cmd : Nat} (signed : p.cmdSigned = true) (wide : 0 < p.cmdInW)
    (fits : cmd < 2 ^ p.cmdInW) : commandNumber p cmd = (cmd : Int).bmod (2 ^ p.cmdInW) := by
  obtain ⟨w, width⟩ := Nat.exists_eq_succ_of_ne_zero wide.ne'
  rw [width] at fits
  have mod_self : (cmd : Int) % (2 ^ (w + 1) : Nat) = cmd := Int.emod_eq_of_lt (by omega) (by exact_mod_cast fits)
  rw [commandNumber, if_pos signed, width, Nat.succ_sub_one, Nat.succ_eq_add_one, wordField_top fits, Int.bmod_def,
    mod_self, Nat.pow_succ]
  have power : (2 : Int) ^ (w + 1) = (2 ^ w : Nat) * 2 := by push_cast; ring
  rw [power]
  split <;> split <;> push_cast <;> omega

/-- Either reading keeps the low byte of the port word, since the port has at least 8 bits. -/
theorem commandNumber_emod_256 {p : Params} (wide : 8 ≤ p.cmdInW) (cmd : Nat) :
    commandNumber p cmd % 256 = (cmd : Int) % 256 := by
  cases signed : p.cmdSigned with
  | false => rw [commandNumber_of_unsigned signed]
  | true =>
    obtain ⟨m, multiple⟩ : (256 : Int) ∣ 2 ^ p.cmdInW := pow_dvd_pow (2 : Int) wide
    rw [commandNumber, if_pos signed, multiple, Int.mul_assoc, Int.sub_mul_emod_self_left]

theorem commandByte_cast (n : Int) : (commandByte n : Int) = n % 256 := by
  unfold commandByte
  omega

theorem commandByte_commandNumber {p : Params} (wide : 8 ≤ p.cmdInW) (cmd : Nat) :
    commandByte (commandNumber p cmd) = cmd % 256 := by
  rw [commandByte, commandNumber_emod_256 wide]
  rfl

/-- Settles O16. -/
theorem commandNumberReadsPort : Obligations.CommandNumberReadsPort := by
  intro p cmd legal fits
  obtain ⟨wide, -⟩ := legal
  refine ⟨(commandNumber_of_unsigned · cmd), fun signed => ?_, commandByte_commandNumber wide cmd, commandByte_cast _⟩
  rw [commandNumber_of_signed signed (by omega) fits, BitVec.toInt_eq_toNat_bmod, BitVec.toNat_ofNat,
    Nat.mod_eq_of_lt fits]

/-! ### The integer of a script line (30_encoding R73) -/

theorem cmdWord_of_minus {p : Params} {n : ScriptInt} (unsigned : p.cmdSigned = false) (minus : n.minus = true) :
    cmdWord p n = .refused .negativeCommand := by
  simp [cmdWord, unsigned, minus]

theorem value_of_no_minus {n : ScriptInt} (plus : n.minus = false) : n.value = n.magnitude := by
  simp [ScriptInt.value, plus]

theorem cmdWord_of_no_minus {p : Params} {n : ScriptInt} (plus : n.minus = false) (fits : n.magnitude < 2 ^ p.cmdInW) :
    cmdWord p n = .next n.magnitude := by
  have upper : (n.magnitude : Int) < 2 ^ p.cmdInW := by exact_mod_cast fits
  have half : (0 : Int) < 2 ^ (p.cmdInW - 1) := pow_pos two_pos _
  have lower : -(2 ^ (p.cmdInW - 1) : Int) ≤ n.magnitude := by omega
  rw [cmdWord_eq_next, value_of_no_minus plus, Int.emod_eq_of_lt (by omega) upper]
  exact ⟨by simp [plus], ⟨lower, upper⟩, rfl⟩

/-- Where an integer is in the range of a signed port, the port's reading takes the remainder back. -/
theorem commandNumber_emod_two_pow {p : Params} {n : Int} {w : Nat} (signed : p.cmdSigned = true) (wide : 0 < p.cmdInW)
    (word : (w : Int) = n % 2 ^ p.cmdInW) (lower : -(2 ^ (p.cmdInW - 1)) ≤ n) (upper : n < 2 ^ (p.cmdInW - 1)) :
    w < 2 ^ p.cmdInW ∧ commandNumber p w = n := by
  have half : (2 : Int) ^ p.cmdInW = 2 ^ (p.cmdInW - 1) * 2 := by rw [← pow_succ, Nat.sub_add_cancel wide]
  have cast : ((2 ^ p.cmdInW : Nat) : Int) = 2 ^ p.cmdInW := by push_cast; rfl
  have fits : w < 2 ^ p.cmdInW := by
    have below : (w : Int) < 2 ^ p.cmdInW := word ▸ Int.emod_lt_of_pos n (pow_pos two_pos _)
    exact_mod_cast below
  refine ⟨fits, ?_⟩
  rw [commandNumber_of_signed signed wide fits, word, ← cast, Int.emod_bmod]
  exact Int.bmod_eq_of_le_mul_two (by omega) (by omega)

/-- Settles O41. -/
theorem scriptIntegerReachesBuilder : Obligations.ScriptIntegerReachesBuilder := by
  intro p n legal
  obtain ⟨wide, -⟩ := legal
  refine ⟨fun unsigned plus fits => ?_, cmdWord_of_minus, fun signed lower upper => ?_⟩
  · exact ⟨n.magnitude, cmdWord_of_no_minus plus fits, fits, commandNumber_of_unsigned unsigned _⟩
  · have modulus : (0 : Int) < 2 ^ p.cmdInW := pow_pos two_pos _
    have below : n.value < 2 ^ p.cmdInW :=
      upper.trans_le (pow_le_pow_right₀ (by decide) (Nat.sub_le _ _))
    have word : ((n.value % 2 ^ p.cmdInW).toNat : Int) = n.value % 2 ^ p.cmdInW :=
      Int.toNat_of_nonneg (Int.emod_nonneg _ modulus.ne')
    obtain ⟨fits, reads⟩ := commandNumber_emod_two_pow signed (by omega) word lower upper
    exact ⟨_, cmdWord_eq_next.mpr ⟨fun _ => signed, ⟨lower, below⟩, rfl⟩, fits, word, reads⟩

/-! ### The request frame (30_encoding R59) -/

/-- The text of a number below 2^32 has at most 32 digits (40_request_builder R81). -/
theorem cmdOversize_of_lt {n : Int} (below : n < 2 ^ 32) : cmdOversize n = false := by
  cases n with
  | negSucc _ => rfl
  | ofNat n =>
    have natural : n < 2 ^ 32 := Int.ofNat_lt.mp below
    have digits : bitLen n ≤ 32 := by
      unfold bitLen
      split
      next => decide
      next nonzero => exact (Nat.log2_lt nonzero).mpr natural
    simpa [cmdOversize, textLength] using digits

/-- With the masked checksum the four bytes stand side by side, and none reaches into another. -/
theorem requestFrame_of_masked {p : Params} (masked : p.cksumOrCarry = false) (cb : BitVec 8) :
    requestFrame p cb.toNat = 0x52#8 ++ 0x51#8 ++ cb ++ (0x52#8 + 0x51#8 + cb) := by
  have checksum : (0x52#8 + 0x51#8 + cb).toNat = checksumSum cb.toNat % 256 := by
    rw [BitVec.toNat_add]
    rfl
  have number : (0x52#8 ++ 0x51#8 ++ cb ++ (0x52#8 + 0x51#8 + cb)).toNat =
      (tag <<< 8 ||| cb.toNat) <<< 8 ||| checksumSum cb.toNat % 256 := by
    rw [BitVec.toNat_append, BitVec.toNat_append, checksum]
    rfl
  rw [requestFrame, masked, if_neg Bool.false_ne_true, ← number, BitVec.ofNat_toNat, BitVec.setWidth_eq]

theorem commandByte_eq_ofInt_toNat (n : Int) : commandByte n = (BitVec.ofInt 8 n).toNat := by
  rw [BitVec.toNat_ofInt]
  rfl

/-- Settles O17. -/
theorem buildRequestFrame : Obligations.BuildRequestFrame := by
  intro s cmd masked below
  obtain ⟨oversize, -⟩ | ⟨-, built⟩ := execBuildRequest_cases cmd s
  · rw [cmdOversize_of_lt below] at oversize
    contradiction
  · rw [commandByte_eq_ofInt_toNat, requestFrame_of_masked masked] at built
    exact built

end Sys2Proof.Encoding
end

section
/-!
Settles O42 and O40 (30_encoding R73, R74): which port the text of a result read names, and STATUS32 as two transactions.
-/

namespace Sys2Proof.Encoding
open Sys2Proof.Machine

/-! ### The text of a result read (30_encoding R73) -/

theorem nameChar_of_readName {cs name : List Char} (named : readName cs = some name) :
    ∀ c ∈ cs, (c.isAlphanum || c == '_') = true := by
  unfold readName at named
  split at named
  next good =>
    obtain ⟨-, all⟩ := good
    exact List.all_eq_true.mp all
  next => contradiction

theorem ne_of_nameChar {c d : Char} (good : (c.isAlphanum || c == '_') = true)
    (bad : (d.isAlphanum || d == '_') = false) : c ≠ d := by
  rintro rfl
  simp [good] at bad

theorem trim_of_no_space {cs : List Char} (solid : ∀ c ∈ cs, c ≠ ' ') : trim cs = cs := by
  have kept {l : List Char} (same : ∀ c ∈ l, c ≠ ' ') : l.dropWhile (· == ' ') = l :=
    List.dropWhile_eq_self_iff.mpr fun _ => by simpa using same _ (List.getElem_mem _)
  rw [trim, kept solid, kept (by simpa using solid), List.reverse_reverse]

theorem resultText_no_space (k : ResultPort) : ∀ c ∈ resultText k, c ≠ ' ' := by
  have solid : (resultText k).all (· != ' ') = true := by cases k <;> rfl
  simpa using solid

/-- Of the six words the first that is the word of `k` is its own. -/
theorem find_resultText (k : ResultPort) :
    [ResultPort.err, .reqFrame, .nField, .payload, .shortRead, .sval].find?
      (fun j => '.' :: resultText k == '.' :: resultText j) = some k := by
  cases k <;> rfl

theorem resultText_injective {j k : ResultPort} (same : resultText j = resultText k) : j = k := by
  have found := find_resultText j
  rw [same, find_resultText k] at found
  exact (Option.some.inj found).symm

/-- The name of a result read ends at its dot, and the word behind the dot names the port. -/
theorem readResultText_dot {name : List Char} (named : readName name = some name) (k : ResultPort) :
    readResultText (name ++ '.' :: resultText k) = some (name, k) := by
  have good := nameChar_of_readName named
  have no_dot : ∀ c ∈ name, (c != '.') = true := fun c mem => by
    simpa using ne_of_nameChar (good c mem) (d := '.') (by decide)
  have no_space : ∀ c ∈ name ++ '.' :: resultText k, c ≠ ' ' := by
    simp only [List.mem_append, List.mem_cons]
    rintro c (mem | rfl | mem)
    · exact ne_of_nameChar (good c mem) (by decide)
    · decide
    · exact resultText_no_space k c mem
  have before_dot : (name ++ '.' :: resultText k).takeWhile (· != '.') = name := by
    rw [List.takeWhile_append_of_pos no_dot, List.takeWhile_cons_of_neg (by decide), List.append_nil]
  have from_dot : (name ++ '.' :: resultText k).dropWhile (· != '.') = '.' :: resultText k := by
    rw [List.dropWhile_append_of_pos no_dot, List.dropWhile_cons_of_neg (by decide)]
  simp only [readResultText, trim_of_no_space no_space, before_dot, from_dot, named, find_resultText]
  rfl

/-- Settles O42. -/
theorem resultTextReadsNamedPort : Obligations.ResultTextReadsNamedPort :=
  ⟨fun _ _ k named => by simp [readText, readResultText_dot named k], fun _ _ => resultText_injective⟩

/-! ### STATUS32 (30_encoding R74) -/

theorem wf_parseStatus {p : Params} {frame : BitStr} (fits : frame.length ≤ p.maxInBits) :
    (Instr.parseStatus frame).wf p = true :=
  decide_eq_true fits

theorem wf_toSigned32 {p : Params} {array : BitStr} (fits : array.length ≤ p.maxInBits) :
    (Instr.toSigned32 array).wf p = true :=
  decide_eq_true fits

/-- A well-formed operation issued to an idle CORE is that operation. -/
theorem issue_toDescriptor {s : State} {i : Instr} (idle : s.pending = none) (wf : i.wf s.params = true) :
    issue (toDescriptor i) s = exec i s := by
  have decoded := decode_toDescriptor wf
  have presented := present_eq_next.mpr ⟨idle, ⟨i, decoded⟩, rfl⟩
  rw [issue, presented, andThen_next]
  exact step_of_decode rfl rfl decoded

/-- A successful PARSE_STATUS answers an array that is no longer than its frame; an error answers no array. -/
theorem execParseStatus_ends (frame : BitStr) (s : State) :
    (∃ c, execParseStatus frame s = .next (s.conclude (.err c))) ∨
    ∃ n array short, array.length ≤ frame.length ∧
      execParseStatus frame s = .next (s.conclude (.ok (.parse n array short))) := by
  obtain ⟨-, -, h⟩ | ⟨-, -, h⟩ | ⟨-, -, -, h⟩ | ⟨-, -, h⟩ := execParseStatus_cases frame s
  · exact .inl ⟨_, h⟩
  · exact .inr ⟨_, [], _, Nat.zero_le _, h⟩
  · exact .inl ⟨_, h⟩
  · exact .inr ⟨_, _, _, (CoreState.payloadOf_length_le_rest _ _ _).trans (Nat.sub_le _ _), h⟩

theorem readPayload_drive_parse (n : Option (BitVec 16)) (array : BitStr) (short : Bool) :
    readPayload (drive (.ok (.parse n array short))) = .next array :=
  congrArg Host.Outcome.next (slice_zero_length array)

theorem errBits_ne_errOk (c : ErrCode) : errBits c ≠ errOk := by cases c <;> decide

section status32
variable {s : State} {bits : BitStr} (idle : s.pending = none) (fits : bits.length ≤ s.params.maxInBits)
include idle fits

/-- An error of PARSE_STATUS ends STATUS32. -/
theorem status32_of_error {c : ErrCode} (parsed : execParseStatus bits s = .next (s.conclude (.err c))) :
    status32 bits s = .next (s.conclude (.err c)) := by
  have first : issue (toDescriptor (.parseStatus bits)) s = .next (s.conclude (.err c)) :=
    (issue_toDescriptor idle (wf_parseStatus fits)).trans parsed
  rw [status32, first, andThen_next, conclude_out, drive_err_err, readPort, andThen_next, if_neg (errBits_ne_errOk c)]

/-- After a PARSE_STATUS without error STATUS32 is TO_SIGNED32 of its array. -/
theorem status32_of_parse {n : Option (BitVec 16)} {array : BitStr} {short : Bool} (within : array.length ≤ bits.length)
    (parsed : execParseStatus bits s = .next (s.conclude (.ok (.parse n array short)))) :
    status32 bits s = exec (.toSigned32 array) (s.conclude (.ok (.parse n array short))) := by
  have first : issue (toDescriptor (.parseStatus bits)) s = .next (s.conclude (.ok (.parse n array short))) :=
    (issue_toDescriptor idle (wf_parseStatus fits)).trans parsed
  rw [status32, first, andThen_next, conclude_out, drive_ok_err, readPort, andThen_next, if_pos rfl,
    readPayload_drive_parse, andThen_next]
  exact issue_toDescriptor rfl (wf_toSigned32 (within.trans fits))

end status32

/-- Settles O40. -/
theorem status32Expansion : Obligations.Status32Expansion := by
  intro s bits idle fits
  obtain ⟨c, parsed⟩ | ⟨n, array, short, within, parsed⟩ := execParseStatus_ends bits s
  · refine ⟨_, errBits c, parsed, rfl, fun _ => status32_of_error idle fits parsed, fun ok => ?_⟩
    exact absurd ok (errBits_ne_errOk c)
  · obtain ⟨o, converted⟩ := exec_eq_conclude (.toSigned32 array) (s.conclude (.ok (.parse n array short)))
    refine ⟨_, errOk, parsed, rfl, fun bad => absurd rfl bad, fun _ => ?_⟩
    exact ⟨array, _, rfl, converted, (status32_of_parse idle fits within parsed).trans converted⟩

end Sys2Proof.Encoding
end

section
/-!
Settles O18 to O21 (40_request_builder R81, R84, R89, R90): when BUILD_REQUEST accepts a command number, and what the four
bytes of its frame are under either packing of the checksum.
-/

namespace Sys2Proof.RequestBuilder
open Sys2Proof.Machine

/-! ### Which command numbers are accepted (40_request_builder R81) -/

theorem lt_bitLen_iff {k n : Nat} (positive : 0 < k) : k < bitLen n ↔ 2 ^ k ≤ n := by
  unfold bitLen
  split
  next zero =>
    have power : 0 < 2 ^ k := Nat.two_pow_pos k
    omega
  next nonzero => rw [Nat.lt_succ_iff, Nat.le_log2 nonzero]

/-- The 8 digits that a text is padded to are never too many. -/
theorem lt_max_eight_iff {k m : Nat} (wide : 8 ≤ k) : k < max 8 m ↔ k < m := by omega

theorem cmdOversize_iff {n : Int} : cmdOversize n = true ↔ 2 ^ 32 ≤ n := by
  cases n with
  | negSucc n => exact iff_of_false Bool.false_ne_true (by omega)
  | ofNat n =>
    rw [cmdOversize, decide_eq_true_iff, textLength, lt_max_eight_iff (by decide), lt_bitLen_iff (by decide)]
    exact Int.ofNat_le.symm

/-- The bound in the terms of R81: a number that is not negative, and the digits of its binary text. -/
theorem two_pow_le_iff_text_long {n : Int} :
    2 ^ 32 ≤ n ↔ 0 ≤ n ∧ 32 < max 8 (max 1 (Nat.digits 2 n.toNat).length) := by
  rw [lt_max_eight_iff (by decide), lt_max_iff, Nat.lt_digits_length_iff (by decide)]
  omega

/-- Reading the port as two's complement only ever subtracts. -/
theorem commandNumber_le (p : Params) (cmd : Nat) : commandNumber p cmd ≤ cmd := by
  unfold commandNumber
  split
  next => exact Int.sub_le_self _ (by positivity)
  next => exact le_rfl

/-! ### What BUILD_REQUEST answers (40_request_builder R83) -/

theorem exec_buildRequest_of_lt {s : State} {cmd : Nat} (below : commandNumber s.params cmd < 2 ^ 32) :
    exec (.buildRequest cmd) s =
      .next (s.conclude (.ok (.build (requestFrame s.params (commandByte (commandNumber s.params cmd)))))) := by
  obtain ⟨oversize, -⟩ | ⟨-, built⟩ := execBuildRequest_cases cmd s
  · exact absurd (cmdOversize_iff.mp oversize) (not_le.mpr below)
  · exact built

theorem exec_buildRequest_raises_iff {s : State} {cmd : Nat} :
    exec (.buildRequest cmd) s = .next (s.conclude (.err .cmdOversize)) ↔ 2 ^ 32 ≤ commandNumber s.params cmd := by
  obtain ⟨oversize, raised⟩ | ⟨accepted, built⟩ := execBuildRequest_cases cmd s
  · exact iff_of_true raised (cmdOversize_iff.mp oversize)
  · have below : ¬ 2 ^ 32 ≤ commandNumber s.params cmd := by
      rw [← cmdOversize_iff, accepted]
      exact Bool.false_ne_true
    refine iff_of_false (fun raised => ?_) below
    have same := Host.Outcome.next.inj (built.symm.trans raised)
    have codes : some errOk = some (errBits .cmdOversize) := congrArg (·.out.err) same
    exact absurd codes (by decide)

/-- Whatever drives `req_frame` after BUILD_REQUEST is the frame of the command byte. -/
theorem reqFrame_of_exec {s t : State} {cmd : Nat} {f : Word32} (ran : exec (.buildRequest cmd) s = .next t)
    (driven : t.out.reqFrame = some f) : f = requestFrame s.params (commandByte (commandNumber s.params cmd)) := by
  obtain ⟨-, raised⟩ | ⟨-, built⟩ := execBuildRequest_cases cmd s
  · obtain rfl := Host.Outcome.next.inj (ran.symm.trans raised)
    exact absurd driven (by simp)
  · obtain rfl := Host.Outcome.next.inj (ran.symm.trans built)
    exact (Option.some.inj driven).symm

theorem exists_commandByte_eq (n : Int) : ∃ cb : BitVec 8, commandByte n = cb.toNat :=
  ⟨_, Encoding.commandByte_eq_ofInt_toNat n⟩

/-! ### The bytes of a frame (40_request_builder R82, R84) -/

/-- Byte 2 of a literally packed frame: bit 8 of the sum falls on bit 0 of the command byte. -/
def literalByte2 (cb : BitVec 8) : BitVec 8 := cb ||| BitVec.ofNat 8 (checksumSum cb.toNat >>> 8)

theorem checksumSum_eq (cb : Nat) : checksumSum cb = 0xA3 + cb := rfl

theorem checksumSum_lt (cb : BitVec 8) : checksumSum cb.toNat < 2 ^ 9 := by
  rw [checksumSum_eq]
  omega

/-- Byte 3 under either packing. -/
theorem checksumByte_eq_ofNat (cb : BitVec 8) : 0x52#8 + 0x51#8 + cb = BitVec.ofNat 8 (checksumSum cb.toNat) := by
  rw [checksumSum_eq]
  bv_omega

/-- The word of R84 is four bytes side by side: the carry of the sum is all that reaches into another byte. -/
theorem literalBytes_toNat (cb : BitVec 8) :
    (0x52#8 ++ 0x51#8 ++ literalByte2 cb ++ (0x52#8 + 0x51#8 + cb)).toNat =
      (tag <<< 8 ||| cb.toNat) <<< 8 ||| checksumSum cb.toNat := by
  have sum_lt := checksumSum_lt cb
  have carry : (BitVec.ofNat 8 (checksumSum cb.toNat >>> 8)).toNat = checksumSum cb.toNat >>> 8 :=
    Nat.mod_eq_of_lt (by omega)
  have sum_split : (checksumSum cb.toNat >>> 8) <<< 8 ||| checksumSum cb.toNat % 256 = checksumSum cb.toNat := by
    rw [← Nat.shiftLeft_add_eq_or_of_lt (Nat.mod_lt _ (by decide))]
    omega
  calc (0x52#8 ++ 0x51#8 ++ literalByte2 cb ++ (0x52#8 + 0x51#8 + cb)).toNat
      = (tag <<< 8 ||| (cb.toNat ||| checksumSum cb.toNat >>> 8)) <<< 8 ||| checksumSum cb.toNat % 256 := by
        rw [checksumByte_eq_ofNat, BitVec.toNat_append, BitVec.toNat_append, literalByte2, BitVec.toNat_or, carry]
        rfl
    _ = (tag <<< 8 ||| cb.toNat) <<< 8 ||| checksumSum cb.toNat := by
        rw [← Nat.or_assoc, Nat.shiftLeft_or_distrib, Nat.or_assoc, sum_split]

theorem requestFrame_of_literal {p : Params} (literal : p.cksumOrCarry = true) (cb : BitVec 8) :
    requestFrame p cb.toNat = 0x52#8 ++ 0x51#8 ++ literalByte2 cb ++ (0x52#8 + 0x51#8 + cb) := by
  rw [requestFrame, if_pos literal, ← literalBytes_toNat, BitVec.ofNat_toNat, BitVec.setWidth_eq]

/-- The four bytes of a word, read off from one that is written byte by byte. -/
theorem extractLsb'_of_eq_append {f : Word32} {b0 b1 b2 b3 : BitVec 8} (bytes : f = b0 ++ b1 ++ b2 ++ b3) :
    f.extractLsb' 24 8 = b0 ∧ f.extractLsb' 16 8 = b1 ∧ f.extractLsb' 8 8 = b2 ∧ f.extractLsb' 0 8 = b3 := by
  subst bytes
  refine ⟨?_, ?_, ?_, BitVec.extractLsb'_append_eq_right⟩
  · rw [BitVec.extractLsb'_append_eq_of_le (by decide), BitVec.extractLsb'_append_eq_of_le (by decide)]
    exact BitVec.extractLsb'_append_eq_left
  · rw [BitVec.extractLsb'_append_eq_of_le (by decide), BitVec.extractLsb'_append_eq_of_le (by decide)]
    exact BitVec.extractLsb'_append_eq_right
  · rw [BitVec.extractLsb'_append_eq_of_le (by decide)]
    exact BitVec.extractLsb'_append_eq_right

theorem requestFrame_toNat_of_literal {p : Params} (literal : p.cksumOrCarry = true) (cb : BitVec 8) :
    (requestFrame p cb.toNat).toNat = (tag <<< 8 ||| cb.toNat) <<< 8 ||| checksumSum cb.toNat := by
  rw [requestFrame_of_literal literal, literalBytes_toNat]

/-- Bit 8 of the frame is where the carry meets the command byte. -/
theorem requestFrame_bit8_of_literal {p : Params} (literal : p.cksumOrCarry = true) (cb : BitVec 8) :
    (requestFrame p cb.toNat).getLsbD 8 = (cb.toNat.testBit 0 || (checksumSum cb.toNat).testBit 8) := by
  rw [← BitVec.testBit_toNat, requestFrame_toNat_of_literal literal]
  simp [Nat.testBit_shiftLeft]

/-- Above bit 8 the sum does not reach. -/
theorem requestFrame_above_of_literal {p : Params} (literal : p.cksumOrCarry = true) (cb : BitVec 8) :
    (requestFrame p cb.toNat).extractLsb' 9 23 = BitVec.ofNat 23 ((tag <<< 8 ||| cb.toNat) >>> 1) := by
  have sum_gone : checksumSum cb.toNat >>> 9 = 0 := Nat.shiftRight_eq_zero _ _ (checksumSum_lt cb)
  have shifted : ((tag <<< 8 ||| cb.toNat) <<< 8) >>> 9 = (tag <<< 8 ||| cb.toNat) >>> 1 := by
    rw [Nat.shiftRight_add _ 8 1, Nat.shiftLeft_shiftRight]
  apply BitVec.eq_of_toNat_eq
  rw [BitVec.extractLsb'_toNat, requestFrame_toNat_of_literal literal, Nat.shiftRight_or_distrib, sum_gone, shifted,
    Nat.or_zero, BitVec.toNat_ofNat]

/-! ### Byte 2 of the literal packing (40_request_builder R84, R89) -/

theorem literalByte2_of_lt {cb : BitVec 8} (no_carry : checksumSum cb.toNat < 256) : literalByte2 cb = cb := by
  have shifted : checksumSum cb.toNat >>> 8 = 0 := by omega
  rw [literalByte2, shifted, BitVec.or_zero]

theorem literalByte2_of_le {cb : BitVec 8} (carry : 256 ≤ checksumSum cb.toNat) : literalByte2 cb = cb ||| 1#8 := by
  have sum_lt := checksumSum_lt cb
  have shifted : checksumSum cb.toNat >>> 8 = 1 := by omega
  rw [literalByte2, shifted]

theorem nat_or_one (n : Nat) : n ||| 1 = 2 * (n / 2) + 1 := by
  have half : (n ||| 1) / 2 = n / 2 := by rw [Nat.or_div_two, Nat.or_zero]
  have low : (n ||| 1) % 2 = 1 := Nat.or_mod_two_eq_one.mpr (.inr rfl)
  omega

theorem or_one_eq (cb : BitVec 8) : cb ||| 1#8 = if cb.toNat % 2 = 0 then cb + 1 else cb := by
  have or_toNat : (cb ||| 1#8).toNat = 2 * (cb.toNat / 2) + 1 := nat_or_one cb.toNat
  apply BitVec.eq_of_toNat_eq
  rw [or_toNat]
  split <;> bv_omega

/-- Byte 2 changes where a carry meets a clear bit (R84). -/
theorem literalByte2_ne_iff (cb : BitVec 8) :
    literalByte2 cb ≠ cb ↔ 256 ≤ checksumSum cb.toNat ∧ cb.toNat % 2 = 0 := by
  by_cases carry : 256 ≤ checksumSum cb.toNat
  · rw [literalByte2_of_le carry, or_one_eq]
    split
    next even => exact iff_of_true (by bv_omega) ⟨carry, even⟩
    next odd => exact iff_of_false (· rfl) fun both => odd both.right
  · exact iff_of_false (absurd (literalByte2_of_lt (not_le.mp carry))) fun both => carry both.left

/-- Setting a clear bit 0 adds 1 (R89). -/
theorem literalByte2_of_ne {cb : BitVec 8} (changed : literalByte2 cb ≠ cb) : literalByte2 cb = cb + 1 := by
  obtain ⟨carry, even⟩ := (literalByte2_ne_iff cb).mp changed
  rw [literalByte2_of_le carry, or_one_eq, if_pos even]

/-! ### The obligations -/

/-- Settles O19. -/
theorem cmdOversizeExactlyAbove32Bits : Obligations.CmdOversizeExactlyAbove32Bits := by
  intro s cmd n raised
  have raised_iff : raised ↔ 2 ^ 32 ≤ n := exec_buildRequest_raises_iff
  refine ⟨raised_iff.trans two_pow_le_iff_text_long, raised_iff, fun unsigned => ?_, fun narrow fits => ?_⟩
  · have reading : n = cmd := Encoding.commandNumber_of_unsigned unsigned cmd
    rw [reading]
    exact Int.natCast_nonneg cmd
  · have port : cmd < 2 ^ 32 := fits.trans_le (Nat.pow_le_pow_right two_pos narrow)
    have below : n ≤ cmd := commandNumber_le s.params cmd
    rw [raised_iff]
    omega

/-- Settles O20: the frame is a function of the command byte. -/
theorem frameDependsOnLowByteOnly : Obligations.FrameDependsOnLowByteOnly := by
  intro s c d c_below d_below same
  have bytes : commandByte (commandNumber s.params c) = commandByte (commandNumber s.params d) :=
    congrArg Int.toNat same
  exact ⟨_, exec_buildRequest_of_lt c_below, bytes ▸ exec_buildRequest_of_lt d_below, rfl⟩

/-- Settles O18: byte by byte where the rule speaks of bytes, and from the word itself where it speaks of bits. -/
theorem buildRequestLiteralPacking : Obligations.BuildRequestLiteralPacking := by
  intro s cmd literal below cb sum
  refine ⟨requestFrame s.params cb, exec_buildRequest_of_lt below, ?_⟩
  obtain ⟨byte, cb_eq⟩ : ∃ byte : BitVec 8, cb = byte.toNat := exists_commandByte_eq _
  clear_value cb
  subst cb_eq
  obtain ⟨-, -, byte2, byte3⟩ := extractLsb'_of_eq_append (requestFrame_of_literal literal byte)
  refine ⟨checksumSum_lt byte, requestFrame_toNat_of_literal literal byte, byte3.trans (checksumByte_eq_ofNat byte),
    requestFrame_bit8_of_literal literal byte, requestFrame_above_of_literal literal byte, ?_, by omega⟩
  rw [byte2, BitVec.ofNat_toNat, BitVec.setWidth_eq]
  exact literalByte2_ne_iff byte

/-- Settles O21: a masked frame carries the command byte, and a literal one whose byte 2 differs carries the number after
it, so the receiver's sum is one more than byte 3. -/
theorem receiverRecomputesChecksum : Obligations.ReceiverRecomputesChecksum := by
  intro s t cmd f ran driven cb recomputed
  have frame : f = requestFrame s.params cb := reqFrame_of_exec ran driven
  obtain ⟨byte, cb_eq⟩ : ∃ byte : BitVec 8, cb = byte.toNat := exists_commandByte_eq _
  clear_value cb
  subst cb_eq
  refine ⟨fun masked => ?_, fun literal changed => ?_⟩
  · rw [Encoding.requestFrame_of_masked masked] at frame
    obtain ⟨byte0, byte1, byte2, byte3⟩ := extractLsb'_of_eq_append frame
    simp only [recomputed, byte0, byte1, byte2, byte3]
  · rw [requestFrame_of_literal literal] at frame
    obtain ⟨byte0, byte1, byte2, byte3⟩ := extractLsb'_of_eq_append frame
    rw [byte2, BitVec.ofNat_toNat, BitVec.setWidth_eq] at changed
    have sum_eq : recomputed = 0x52#8 + 0x51#8 + (byte + 1) := by
      simp only [recomputed, byte0, byte1, byte2, literalByte2_of_ne changed]
    rw [sum_eq, byte3]
    constructor <;> bv_omega

end Sys2Proof.RequestBuilder
end

section
/-!
Settles O23 to O30 (41_response_parser): what PARSE_STATUS answers for a frame with and without its fixed part, which
positions of the frame it looks at, and the bounds on the array.
-/

namespace Sys2Proof.ResponseParser
open Sys2Proof.Machine

/-! ### The length field and the payload of a frame (30_encoding R62 to R65) -/

/-- A slice looks at the positions from `a` to `b - 1` alone. -/
theorem slice_congr {x y : BitStr} {a b : Nat} (same : ∀ i, a ≤ i → i < b → x[i]? = y[i]?) :
    slice x a b = slice y a b := by
  refine List.ext_getElem? fun i => ?_
  rw [slice_getElem?, slice_getElem?]
  by_cases inside : a + i < b
  · rw [if_pos inside, if_pos inside, same _ (Nat.le_add_right a i) inside]
  · rw [if_neg inside, if_neg inside]

section frame
variable {p : Params} {frame : BitStr}

theorem payloadOf_length (n : Nat) : (payloadOf p frame n).length = min (8 * n) (frame.length - p.payPos) := by
  rw [payloadOf, slice_length]
  omega

theorem payloadOf_getElem? {n i : Nat} (inside : i < (payloadOf p frame n).length) :
    (payloadOf p frame n)[i]? = frame[p.payPos + i]? := by
  rw [payloadOf_length] at inside
  exact Scope.slice_getElem?_of_lt frame (by omega)

/-- A payload is short exactly where the frame ends before its boundary (41_response_parser R103). -/
theorem payloadShort_payloadOf (fixed : p.payPos ≤ frame.length) (n : Nat) :
    payloadShort (payloadOf p frame n) n = decide (frame.length < p.payPos + 8 * n) := by
  rw [payloadShort, payloadOf_length]
  exact decide_eq_decide.mpr (by omega)

end frame

theorem lengthField_append {p : Params} {header field : BitStr} (header_length : header.length = 24)
    (field_length : field.length = p.lenFieldW) (rest : BitStr) :
    lengthField p (header ++ field ++ rest) = val field :=
  congrArg val (slice_append_mid header field rest _ _ header_length.symm (by rw [header_length, field_length, lenPos]))

theorem payloadOf_append {p : Params} {start payload : BitStr} {n : Nat} (start_length : start.length = p.payPos)
    (payload_length : payload.length = 8 * n) (trailing : BitStr) :
    payloadOf p (start ++ payload ++ trailing) n = payload :=
  slice_append_mid start payload trailing _ _ start_length.symm (by rw [start_length, payload_length])

/-! ### What PARSE_STATUS answers -/

section answer
variable {s : State} {frame : BitStr}

/-- A frame without its fixed part (41_response_parser R101). -/
theorem exec_parseStatus_of_lt (short : frame.length < s.params.payPos) :
    exec (.parseStatus frame) s =
      .next (s.conclude (if s.params.strictLen = true then .err .hdrShort else .ok (.parse none [] true))) := by
  obtain ⟨-, strict, ran⟩ | ⟨-, lenient, ran⟩ | ⟨fixed, -⟩ | ⟨fixed, -⟩ := execParseStatus_cases frame s
  · rw [if_pos strict]
    exact ran
  · rw [if_neg (by simp [lenient])]
    exact ran
  · exact absurd short (not_lt.mpr fixed)
  · exact absurd short (not_lt.mpr fixed)

/-- A frame with its fixed part, whose payload is complete or need not be (41_response_parser R102 to R104). -/
theorem exec_parseStatus_of_le (fixed : s.params.payPos ≤ frame.length)
    (accepted : s.params.payPos + 8 * lengthField s.params frame ≤ frame.length ∨ s.params.strictLen = false) :
    exec (.parseStatus frame) s =
      .next (s.conclude (.ok (.parse (some (BitVec.ofNat 16 (lengthField s.params frame)))
        (payloadOf s.params frame (lengthField s.params frame))
        (decide (frame.length < s.params.payPos + 8 * lengthField s.params frame))))) := by
  rw [← payloadShort_payloadOf fixed]
  obtain ⟨short, -⟩ | ⟨short, -⟩ | ⟨-, strict, short, -⟩ | ⟨-, -, ran⟩ := execParseStatus_cases frame s
  · exact absurd short (not_lt.mpr fixed)
  · exact absurd short (not_lt.mpr fixed)
  · rw [payloadShort_payloadOf fixed, decide_eq_true_iff] at short
    rcases accepted with complete | lenient
    · exact absurd short (not_lt.mpr complete)
    · simp [lenient] at strict
  · exact ran

/-- A frame with its fixed part, whose payload is short where it must not be (41_response_parser R105). -/
theorem exec_parseStatus_of_payload_short (fixed : s.params.payPos ≤ frame.length)
    (short : frame.length < s.params.payPos + 8 * lengthField s.params frame) (strict : s.params.strictLen = true) :
    exec (.parseStatus frame) s = .next (s.conclude (.err .payloadShort)) := by
  obtain ⟨cut, -⟩ | ⟨cut, -⟩ | ⟨-, -, -, ran⟩ | ⟨-, whole, -⟩ := execParseStatus_cases frame s
  · exact absurd cut (not_lt.mpr fixed)
  · exact absurd cut (not_lt.mpr fixed)
  · exact ran
  · have complete := whole strict
    rw [payloadShort_payloadOf fixed, decide_eq_false_iff_not] at complete
    exact absurd short complete

end answer

/-- PARSE_STATUS looks at whether the fixed part is present, the length field and the payload, and at nothing else of its
frame. -/
theorem exec_parseStatus_congr {s : State} {x y : BitStr} (fixed : x.length < s.params.payPos ↔ y.length < s.params.payPos)
    (field : lengthField s.params x = lengthField s.params y)
    (payload : payloadOf s.params x (lengthField s.params x) = payloadOf s.params y (lengthField s.params x)) :
    exec (.parseStatus x) s = exec (.parseStatus y) s := by
  change execParseStatus x s = execParseStatus y s
  rw [field] at payload
  simp only [execParseStatus, fixed, field, payload]

theorem exec_parseStatus_same_next {s : State} {x y : BitStr}
    (same : exec (.parseStatus x) s = exec (.parseStatus y) s) :
    ∃ t, exec (.parseStatus x) s = .next t ∧ exec (.parseStatus y) s = .next t := by
  obtain ⟨o, ends⟩ := exec_eq_conclude (.parseStatus x) s
  exact ⟨_, ends, same ▸ ends⟩

/-! ### The obligations -/

/-- Settles O23. -/
theorem frameShorterThanFixedPart : Obligations.FrameShorterThanFixedPart := by
  intro s frame short
  rw [exec_parseStatus_of_lt short]
  refine ⟨fun lenient => ?_, fun strict => ?_⟩
  · rw [lenient]
    rfl
  · rw [strict]
    rfl

/-- Settles O24. -/
theorem payloadSliceAndShortRead : Obligations.PayloadSliceAndShortRead := by
  intro s frame legal fixed
  have field : lengthField s.params frame < 2 ^ s.params.lenFieldW := CoreState.lengthField_lt _ _
  have port : lengthField s.params frame < 2 ^ 16 := CoreState.nField_toNat legal field ▸ BitVec.isLt _
  exact ⟨lengthField s.params frame, payloadOf s.params frame (lengthField s.params frame), rfl, port,
    payloadOf_length _, fun _ => payloadOf_getElem?, exec_parseStatus_of_le fixed,
    exec_parseStatus_of_payload_short fixed⟩

/-- Settles O25: the frame's parts stand where the layout has them, so each slice is its part. -/
theorem responseRoundTrip : Obligations.ResponseRoundTrip := by
  intro s t c n filler payload trailing legal fits filler_length payload_length
  obtain ⟨-, -, -, layout, -⟩ := legal
  have header_length : (bitsOf 16 t ++ bitsOf 8 c).length = 24 := by simp
  have start_length : (bitsOf 16 t ++ bitsOf 8 c ++ bitsOf s.params.lenFieldW n ++ filler).length = s.params.payPos := by
    simp only [List.length_append, bitsOf_length, filler_length]
    omega
  generalize framed : bitsOf 16 t ++ bitsOf 8 c ++ bitsOf s.params.lenFieldW n ++ filler ++ payload ++ trailing = frame
  have field : lengthField s.params frame = n := by
    rw [← framed, List.append_assoc _ filler, List.append_assoc _ (filler ++ payload),
      lengthField_append header_length (bitsOf_length _ _), val_bitsOf, Nat.mod_eq_of_lt fits]
  have array : payloadOf s.params frame n = payload := by rw [← framed, payloadOf_append start_length payload_length]
  have complete : s.params.payPos + 8 * n ≤ frame.length := by
    rw [← framed, List.length_append, List.length_append, start_length, payload_length]
    omega
  rw [exec_parseStatus_of_le (by omega) (.inl (field.symm ▸ complete)), field, array, decide_eq_false (not_lt.mpr complete),
    ← payload_length]
  rfl

/-- Settles O26: the two frames have the same length field and the same payload. -/
theorem headerAndFillerNotDecoded : Obligations.HeaderAndFillerNotDecoded := by
  intro s x y _ same_length same
  have field : lengthField s.params x = lengthField s.params y :=
    congrArg val (slice_congr fun i from_field below => same i (.inl ⟨from_field, below⟩))
  exact exec_parseStatus_same_next <| exec_parseStatus_congr (by rw [same_length]) field <|
    slice_congr fun i from_payload _ => same i (.inr from_payload)

/-- Settles O27: the cut is behind the fixed part and the payload, so neither changes. -/
theorem trailingBitsNotDecoded : Obligations.TrailingBitsNotDecoded := by
  intro s frame ⟨_, _, _, layout, _⟩ fixed
  change ∃ t, _ ∧ exec (.parseStatus (frame.take (s.params.payPos + 8 * lengthField s.params frame))) s = _
  have kept {m i : Nat} (before : i < m) : frame[i]? = (frame.take m)[i]? := (List.getElem?_take_of_lt before).symm
  refine exec_parseStatus_same_next (exec_parseStatus_congr ?_ (congrArg val ?_) ?_)
  · rw [List.length_take]
    omega
  · exact slice_congr fun i _ below => kept (by rw [lenPos] at below; omega)
  · exact slice_congr fun i _ below => kept below

/-- Settles O28: both errors of PARSE_STATUS are raised only where `STRICT_LEN` is true. -/
theorem lenientParserNeverRaises : Obligations.LenientParserNeverRaises := by
  intro s frame lenient
  rcases lt_or_ge frame.length s.params.payPos with short | fixed
  · exact ⟨_, exec_parseStatus_of_lt short, by simp [lenient, errOk]⟩
  · exact ⟨_, exec_parseStatus_of_le fixed (.inr lenient), rfl⟩

/-- Settles O29. -/
theorem shortReadExactly : Obligations.ShortReadExactly := by
  intro s t frame ran
  change (_ → (_ ↔ _ ∨ _ < _ + 8 * lengthField s.params frame)) ∧ _
  obtain ⟨-, strict, h⟩ | ⟨short, lenient, h⟩ | ⟨-, strict, -, h⟩ | ⟨fixed, complete, h⟩ := execParseStatus_cases frame s <;>
    obtain rfl := Host.Outcome.next.inj (h.symm.trans ran)
  · simp [strict]
  · simp [lenient, short]
  · simp [strict]
  · have short_iff := payloadShort_payloadOf fixed (lengthField s.params frame)
    refine ⟨fun _ => ?_, fun strict => by simp [complete strict]⟩
    simp [short_iff, not_lt.mpr fixed]

/-- Settles O30: only a success drives `out_len`. -/
theorem statusArrayBounds : Obligations.StatusArrayBounds := by
  intro s t frame len _ ran driven
  change _ ∧ (_ → _ ≤ 8 * lengthField s.params frame ∧ 8 * lengthField s.params frame ≤ _) ∧ _
  have field : lengthField s.params frame < 2 ^ s.params.lenFieldW := CoreState.lengthField_lt _ _
  obtain ⟨-, -, h⟩ | ⟨short, -, h⟩ | ⟨-, -, -, h⟩ | ⟨fixed, -, h⟩ := execParseStatus_cases frame s <;>
    obtain rfl := Host.Outcome.next.inj (h.symm.trans ran)
  · simp at driven
  · obtain rfl : 0 = len := Option.some.inj driven
    exact ⟨Nat.zero_le _, fun fixed => absurd short (not_lt.mpr fixed), fun _ => dvd_zero 8⟩
  · simp at driven
  · obtain rfl : (payloadOf s.params frame (lengthField s.params frame)).length = len := Option.some.inj driven
    refine ⟨CoreState.payloadOf_length_le_rest _ _ _, fun _ => ⟨CoreState.payloadOf_length_le _ _ _, by omega⟩, ?_⟩
    intro complete
    have whole := Option.some.inj complete
    rw [payloadShort, decide_eq_false_iff_not] at whole
    exact ⟨_, le_antisymm (CoreState.payloadOf_length_le _ _ _) (not_lt.mp whole)⟩

end Sys2Proof.ResponseParser
end

section
/-!
Settles O31 to O35 and O39 (42_status_interpreter): TO_SIGNED32 is one sign extension from the array's own width, which
gives its range, what leading zeros do, and which arrays of complete frames it accepts.
-/

namespace Sys2Proof.StatusInterpreter
open Sys2Proof.Machine

/-! ### Stage 1: the sign by the array's own width (42_status_interpreter R122, R123) -/

theorem signedByWidth_eq_ite (a : BitStr) :
    signedByWidth a = if a[0]? = some true then (val a : Int) - 2 ^ a.length else val a := by
  match a with
  | [] => rfl
  | false :: t => simp [signedByWidth]
  | true :: t => simp [signedByWidth]

theorem signedByWidth_nil : signedByWidth [] = 0 := rfl

/-- In the stage 1 value position 0 has the negative of its weight. -/
theorem signedByWidth_cons (b : Bool) (t : BitStr) :
    signedByWidth (b :: t) = val t - (b.toNat * 2 ^ t.length : Nat) := by
  cases b with
  | false => simp [signedByWidth, val_cons]
  | true =>
    simp only [signedByWidth, val_cons, Bool.toNat_true, List.length_cons, pow_succ]
    push_cast
    ring

theorem signedByWidth_false_cons (t : BitStr) : signedByWidth (false :: t) = val t := by
  simp [signedByWidth_cons]

theorem signedByWidth_true_cons (t : BitStr) : signedByWidth (true :: t) = val t - (2 ^ t.length : Nat) := by
  simp [signedByWidth_cons]

/-- The range of w bits in two's complement (42_status_interpreter R128). -/
theorem signedByWidth_cons_range (b : Bool) (t : BitStr) :
    -(2 ^ t.length : Nat) ≤ signedByWidth (b :: t) ∧ signedByWidth (b :: t) < (2 ^ t.length : Nat) := by
  have rest := val_lt t
  cases b with
  | false =>
    rw [signedByWidth_false_cons]
    omega
  | true =>
    rw [signedByWidth_true_cons]
    omega

/-- Every accepted array has a stage 1 value that 32 bits can carry. -/
theorem signedByWidth_range {a : BitStr} (fits : a.length ≤ 32) :
    -2 ^ 31 ≤ signedByWidth a ∧ signedByWidth a < 2 ^ 31 := by
  cases a with
  | nil => decide
  | cons b t =>
    obtain ⟨low, high⟩ := signedByWidth_cons_range b t
    have narrow : 2 ^ t.length ≤ 2 ^ 31 := Nat.pow_le_pow_right (by decide) (Nat.le_of_succ_le_succ fits)
    omega

theorem val_zeros_append (k : Nat) (a : BitStr) : val (List.replicate k false ++ a) = val a := by
  induction k with
  | zero => rfl
  | succ k ih => simp [List.replicate_succ, val_cons, ih]

theorem signedByWidth_zeros_append (k : Nat) (t : BitStr) :
    signedByWidth (List.replicate k false ++ false :: t) = signedByWidth (false :: t) := by
  cases k with
  | zero => rfl
  | succ k =>
    rw [List.replicate_succ, List.cons_append, signedByWidth_false_cons, signedByWidth_false_cons, val_zeros_append,
      val_cons]
    simp

/-! ### Stage 2: the word on `sval` (42_status_interpreter R124, R126, R127) -/

/-- Stage 2 is the signed reading of the 32-bit word that the integer is in two's complement. -/
theorem normalise32_eq_toInt (x : Int) : normalise32 x = (BitVec.ofInt 32 x).toInt := by
  rw [BitVec.toInt_ofInt, Int.bmod_def, normalise32]
  split <;> split <;> omega

theorem toInt_ofInt_signedByWidth {a : BitStr} (fits : a.length ≤ 32) :
    (BitVec.ofInt 32 (signedByWidth a)).toInt = signedByWidth a :=
  have ⟨low, high⟩ := signedByWidth_range fits
  BitVec.toInt_ofInt_eq_self (by decide) low high

/-- Position 0 of the array is the sign bit that `sext` copies up to bit 31. -/
theorem toNat_ofInt_signedByWidth_cons {b : Bool} {t : BitStr} (fits : t.length + 1 ≤ 32) :
    (BitVec.ofInt 32 (signedByWidth (b :: t))).toNat = sext 32 (val (b :: t)) (t.length + 1) := by
  have rest := val_lt t
  have whole : val (b :: t) < 2 ^ (t.length + 1) := val_lt (b :: t)
  have narrow : 2 ^ t.length ≤ 2 ^ 31 := Nat.pow_le_pow_right (by decide) (Nat.le_of_succ_le_succ fits)
  have weight : 2 ^ (t.length + 1) = 2 ^ t.length * 2 := Nat.pow_succ _ _
  rw [BitVec.toNat_ofInt, sext, Nat.add_sub_cancel, Encoding.wordField_top whole, val_cons, weight]
  cases b with
  | false =>
    rw [signedByWidth_false_cons, Bool.toNat_false, Nat.zero_mul, Nat.zero_add, if_pos rest, if_pos rfl]
    omega
  | true =>
    rw [signedByWidth_true_cons, Bool.toNat_true, Nat.one_mul, if_neg (Nat.not_lt.mpr (Nat.le_add_right _ _)),
      if_neg Nat.one_ne_zero]
    omega

/-! ### What TO_SIGNED32 answers (42_status_interpreter R125) -/

theorem exec_toSigned32_of_gt {a : BitStr} (s : State) (long : 32 < a.length) :
    exec (.toSigned32 a) s = .next (s.conclude (.err .arrayOversize)) := by
  obtain ⟨-, ran⟩ | ⟨fits, -⟩ := execToSigned32_cases a s
  · exact ran
  · exact absurd long (not_lt.mpr fits)

/-- Stage 2 does not change the word: it is the stage 1 value mod 2^32 (42_status_interpreter R126). -/
theorem exec_toSigned32_of_le {a : BitStr} (s : State) (fits : a.length ≤ 32) :
    exec (.toSigned32 a) s = .next (s.conclude (.ok (.conv (BitVec.ofInt 32 (signedByWidth a))))) := by
  obtain ⟨long, -⟩ | ⟨-, ran⟩ := execToSigned32_cases a s
  · exact absurd long (not_lt.mpr fits)
  · rw [normalise32_eq_toInt, BitVec.ofInt_toInt] at ran
    exact ran

/-! ### The obligations -/

/-- Settles O31. -/
theorem twoStageConversion : Obligations.TwoStageConversion := by
  intro s a fits
  dsimp only
  rw [← signedByWidth_eq_ite]
  refine ⟨val_lt a, _, exec_toSigned32_of_le s fits, ?_, (normalise32_eq_toInt _).symm⟩
  rw [BitVec.toNat_ofInt]
  exact Int.toNat_of_nonneg (Int.emod_nonneg _ (by decide))

/-- Settles O32. -/
theorem twoStagesEqualSignExtension : Obligations.TwoStagesEqualSignExtension := by
  intro s a fits
  rw [← signedByWidth_eq_ite]
  refine ⟨_, _, exec_toSigned32_of_le s fits, rfl, toInt_ofInt_signedByWidth fits, ?_⟩
  cases a with
  | nil => exact ⟨fun wide => absurd wide (by decide), fun _ => rfl⟩
  | cons b t => exact ⟨fun _ => toNat_ofInt_signedByWidth_cons fits, fun empty => absurd empty (Nat.succ_ne_zero _)⟩

/-- Settles O33. -/
theorem signedResultRange : Obligations.SignedResultRange := by
  intro s a fits
  refine ⟨_, _, exec_toSigned32_of_le s fits, rfl, ?_⟩
  rw [toInt_ofInt_signedByWidth fits]
  cases a with
  | nil => exact ⟨fun wide => absurd wide (by decide), fun _ => signedByWidth_nil⟩
  | cons b t =>
    obtain ⟨low, high⟩ := signedByWidth_cons_range b t
    push_cast at low high
    exact ⟨fun _ => ⟨low, Int.le_sub_one_of_lt high⟩, fun empty => absurd empty (List.cons_ne_nil _ _)⟩

/-- Settles O34: zeros in front of a zero add no weight, and a zero in front of a 1 turns that bit's weight positive. -/
theorem widthMattersForLeadingOne : Obligations.WidthMattersForLeadingOne := by
  intro s a k
  refine ⟨fun fits => ?_, fun fits => ?_⟩
  · refine ⟨_, exec_toSigned32_of_le s (by rw [List.length_cons]; omega), ?_⟩
    rw [← signedByWidth_zeros_append k]
    exact exec_toSigned32_of_le s (by simp only [List.length_append, List.length_replicate, List.length_cons]; omega)
  · have narrow : (true :: a).length ≤ 32 := by rw [List.length_cons]; omega
    have wide : (false :: true :: a).length ≤ 32 := fits
    refine ⟨_, _, exec_toSigned32_of_le s narrow, exec_toSigned32_of_le s wide, fun same => ?_⟩
    have value := congrArg BitVec.toInt (Option.some.inj same)
    rw [toInt_ofInt_signedByWidth narrow, toInt_ofInt_signedByWidth wide, signedByWidth_false_cons,
      signedByWidth_true_cons, val_cons, Bool.toNat_true] at value
    have weight : 0 < 2 ^ a.length := Nat.two_pow_pos _
    omega

/-- Settles O35. -/
theorem arrayOversizeRaised : Obligations.ArrayOversizeRaised :=
  fun s _ long => exec_toSigned32_of_gt s long

/-- Settles O39: the array of a complete frame has 8N bits, and 8N ≤ 32 exactly when N ≤ 4. -/
theorem completeFrameConvertsUpToFourBytes : Obligations.CompleteFrameConvertsUpToFourBytes := by
  intro s frame n complete
  have fixed : s.params.payPos ≤ frame.length := by omega
  have array_length : (payloadOf s.params frame n).length = 8 * n := by
    rw [ResponseParser.payloadOf_length]
    omega
  refine ⟨_, payloadOf s.params frame n, ResponseParser.exec_parseStatus_of_le fixed (.inl complete), rfl, array_length,
    fun short => ?_, fun long => ?_⟩
  · exact ⟨_, exec_toSigned32_of_le _ (by omega), rfl, rfl⟩
  · exact ⟨_, exec_toSigned32_of_gt _ (by omega), rfl, rfl⟩

end Sys2Proof.StatusInterpreter
end

section
/-!
Settles O37, O38 and O14 (60_exceptions): which error each operation raises and when, that an error drives `err` alone, and
that no step faults.
-/

namespace Sys2Proof.Exceptions
open Sys2Proof.Machine

/-! ### The codes on `err` (60_exceptions R141) -/

theorem errOfBits_errBits (e : ErrCode) : errOfBits (errBits e) = some e := by cases e <;> rfl

/-- Different errors have different codes. -/
theorem errBits_inj {a b : ErrCode} : errBits a = errBits b ↔ a = b := by
  refine ⟨fun same => ?_, congrArg errBits⟩
  have named : errOfBits (errBits a) = errOfBits (errBits b) := congrArg errOfBits same
  rwa [errOfBits_errBits, errOfBits_errBits, Option.some_inj] at named

/-- The codes of R141 end at 5. -/
theorem errBits_le_five (e : ErrCode) : errBits e ≤ 5 := by cases e <;> decide

/-- An outcome has an error's code on `err` exactly where it is that error. -/
theorem drive_err_eq_errBits_iff {o : TxOutcome} {e : ErrCode} : (drive o).err = some (errBits e) ↔ o = .err e := by
  cases o with
  | ok data =>
    rw [drive_ok_err, Option.some_inj]
    exact iff_of_false (Encoding.errBits_ne_errOk e).symm TxOutcome.noConfusion
  | err c =>
    rw [drive_err_err, Option.some_inj, TxOutcome.err.injEq, errBits_inj]

/-- `err` has a value after every outcome, and never a reserved one. -/
theorem exists_drive_err_le_five (o : TxOutcome) : ∃ c ≤ 5, (drive o).err = some c := by
  cases o with
  | ok data => exact ⟨errOk, by decide, drive_ok_err data⟩
  | err e => exact ⟨errBits e, errBits_le_five e, drive_err_err e⟩

/-! ### When an operation raises which error (60_exceptions R141) -/

/-- The table of 60_exceptions R141: the operation that raises an error, and when. -/
def RaisedWhen (p : Params) (i : Instr) : ErrCode → Prop
  | .cmdOversize => ∃ cmd, i = .buildRequest cmd ∧ 2 ^ 32 ≤ commandNumber p cmd
  | .arrayOversize => ∃ a, i = .toSigned32 a ∧ 32 < a.length
  | .hdrShort => ∃ frame, i = .parseStatus frame ∧ p.strictLen = true ∧ frame.length < p.payPos
  | .payloadShort => ∃ frame, i = .parseStatus frame ∧ p.strictLen = true ∧ p.payPos ≤ frame.length ∧
      frame.length < p.payPos + 8 * lengthField p frame
  | .illegalOp => i = .reservedOp3

section table
variable {p : Params} {e : ErrCode}

theorem raisedWhen_buildRequest_iff {cmd : Nat} :
    RaisedWhen p (.buildRequest cmd) e ↔ .cmdOversize = e ∧ 2 ^ 32 ≤ commandNumber p cmd := by
  cases e <;> simp [RaisedWhen]

theorem raisedWhen_parseStatus_iff {frame : BitStr} :
    RaisedWhen p (.parseStatus frame) e ↔ p.strictLen = true ∧
      (.hdrShort = e ∧ frame.length < p.payPos ∨
        .payloadShort = e ∧ p.payPos ≤ frame.length ∧ frame.length < p.payPos + 8 * lengthField p frame) := by
  cases e <;> simp [RaisedWhen]

theorem raisedWhen_toSigned32_iff {a : BitStr} : RaisedWhen p (.toSigned32 a) e ↔ .arrayOversize = e ∧ 32 < a.length := by
  cases e <;> simp [RaisedWhen]

theorem raisedWhen_reservedOp3_iff : RaisedWhen p .reservedOp3 e ↔ .illegalOp = e := by
  cases e <;> simp [RaisedWhen]

end table

/-- The outcome of an operation is an error exactly where the table has that error. -/
theorem exec_raises_iff (i : Instr) (s : State) :
    ∃ o, exec i s = .next (s.conclude o) ∧ ∀ e, o = .err e ↔ RaisedWhen s.params i e := by
  cases i with
  | buildRequest cmd =>
    simp only [raisedWhen_buildRequest_iff, ← RequestBuilder.cmdOversize_iff]
    obtain ⟨oversize, ran⟩ | ⟨accepted, ran⟩ := execBuildRequest_cases cmd s
    · exact ⟨_, ran, by simp [oversize]⟩
    · exact ⟨_, ran, by simp [accepted]⟩
  | parseStatus frame =>
    simp only [raisedWhen_parseStatus_iff]
    obtain ⟨short, strict, ran⟩ | ⟨-, lenient, ran⟩ | ⟨fixed, strict, cut, ran⟩ | ⟨fixed, whole, ran⟩ :=
      execParseStatus_cases frame s
    · exact ⟨_, ran, by simp [strict, short, not_le.mpr short]⟩
    · exact ⟨_, ran, by simp [lenient]⟩
    · rw [ResponseParser.payloadShort_payloadOf fixed, decide_eq_true_iff] at cut
      exact ⟨_, ran, by simp [strict, fixed, not_lt.mpr fixed, cut]⟩
    · rw [ResponseParser.payloadShort_payloadOf fixed, decide_eq_false_iff_not, not_lt] at whole
      exact ⟨_, ran, by simp +contextual [not_lt.mpr fixed, whole]⟩
  | toSigned32 a =>
    simp only [raisedWhen_toSigned32_iff]
    obtain ⟨long, ran⟩ | ⟨fits, ran⟩ := execToSigned32_cases a s
    · exact ⟨_, ran, by simp [long]⟩
    · exact ⟨_, ran, by simp [fits]⟩
  | reservedOp3 => exact ⟨_, execReservedOp3_eq s, by simp [raisedWhen_reservedOp3_iff]⟩

/-! ### The obligations -/

/-- Settles O37. -/
theorem errorCodeTable : Obligations.ErrorCodeTable := by
  intro i s
  obtain ⟨o, ran, raised⟩ := exec_raises_iff i s
  obtain ⟨c, at_most, driven⟩ := exists_drive_err_le_five o
  have row (e : ErrCode) : c = errBits e ↔ RaisedWhen s.params i e := by
    rw [← raised, ← drive_err_eq_errBits_iff, driven, Option.some_inj]
  refine ⟨_, c, ran, driven, row .cmdOversize, row .arrayOversize, row .hdrShort, row .payloadShort, row .illegalOp, ?_, ?_⟩
  · rintro rfl
    exact absurd at_most (by decide)
  · rintro rfl
    exact absurd at_most (by decide)

/-- Settles O38: an outcome with another code than OK on `err` is an error, and an error drives nothing else. -/
theorem errorDrivesNoData : Obligations.ErrorDrivesNoData := by
  intro i s t c ran driven bad
  obtain ⟨o, ends⟩ := exec_eq_conclude i s
  obtain rfl := Host.Outcome.next.inj (ends.symm.trans ran)
  cases o with
  | ok data =>
    rw [conclude_out, drive_ok_err, Option.some_inj] at driven
    exact absurd driven.symm bad
  | err e =>
    obtain rfl : errBits e = c := Option.some.inj driven
    rfl

/-- Settles O14: an idle step changes nothing, a bad descriptor is refused, and an operation ends in an outcome. -/
theorem stepNeverFaults : Obligations.StepNeverFaults := by
  intro s r
  obtain ⟨-, ran⟩ | ⟨d, e, -, -, ran⟩ | ⟨d, i, -, -, ran⟩ := step_cases s
  · simp [ran]
  · simp [ran]
  · obtain ⟨o, ends⟩ := exec_eq_conclude i s
    simp [ran, ends]

end Sys2Proof.Exceptions
end

section
/-!
Settles O10, O13, O9, O15 and O44 (70_reset_and_hazards): every presented transaction ends in an outcome that the host can
read, an overlap is refused, and reset leaves a new CORE with its parameters.
-/

namespace Sys2Proof.ResetAndHazards
open Sys2Proof.Machine

/-! ### What a host reads of an outcome (70_reset_and_hazards R171) -/

/-- Reading `err` tells the host an error, and it reads no further, whatever the operation was. -/
theorem hostRead_drive_err (op : BitVec 2) (c : ErrCode) : hostRead op (drive (.err c)) = .next (.err c) := by
  simp [hostRead, readPort, Exceptions.errOfBits_errBits]

theorem hostRead_drive_build (f : Word32) : hostRead 0b00#2 (drive (.ok (.build f))) = .next (.ok (.build f)) := rfl

/-- `out_len` is the length of the array on `out_bits`, so the host reads the array whole (10_state R31, R33). -/
theorem hostRead_drive_parse (n : Option (BitVec 16)) (array : BitStr) (short : Bool) :
    hostRead 0b01#2 (drive (.ok (.parse n array short))) = .next (.ok (.parse n array short)) :=
  congrArg (fun read => Host.Outcome.next (TxOutcome.ok (.parse n read short))) (slice_zero_length array)

theorem hostRead_drive_conv (v : Word32) : hostRead 0b10#2 (drive (.ok (.conv v))) = .next (.ok (.conv v)) := rfl

/-- An operation drives every port that its own code tells the host to read. -/
theorem exec_hostRead (i : Instr) (s : State) :
    ∃ o, exec i s = .next (s.conclude o) ∧ hostRead (opOf i) (drive o) = .next o := by
  cases i with
  | buildRequest cmd =>
    obtain ⟨-, raised⟩ | ⟨-, built⟩ := execBuildRequest_cases cmd s
    · exact ⟨_, raised, hostRead_drive_err _ _⟩
    · exact ⟨_, built, hostRead_drive_build _⟩
  | parseStatus frame =>
    obtain ⟨c, raised⟩ | ⟨n, array, short, -, parsed⟩ := Encoding.execParseStatus_ends frame s
    · exact ⟨_, raised, hostRead_drive_err _ _⟩
    · exact ⟨_, parsed, hostRead_drive_parse _ _ _⟩
  | toSigned32 array =>
    obtain ⟨-, raised⟩ | ⟨-, converted⟩ := execToSigned32_cases array s
    · exact ⟨_, raised, hostRead_drive_err _ _⟩
    · exact ⟨_, converted, hostRead_drive_conv _⟩
  | reservedOp3 => exact ⟨_, execReservedOp3_eq s, hostRead_drive_err _ _⟩

/-! ### A presented transaction (70_reset_and_hazards R174, R175) -/

/-- The code on the `op` port is the one of the operation that runs (30_encoding R56). -/
theorem opOf_of_decode {p : Params} {d : Descriptor} {i : Instr} (decoded : decode p d = .ok i) : opOf i = d.op := by
  obtain ⟨-, ⟨op, rfl⟩ | ⟨op, a, -, rfl⟩ | ⟨op, a, -, rfl⟩ | ⟨op, rfl⟩⟩ := decode_eq_ok decoded <;> exact op.symm

/-- `Memory.step_of_present` with what the host then reads. -/
theorem step_of_present_hostRead {s t : State} {d : Descriptor} (presented : present d s = .next t) :
    ∃ o, step t = .next (t.conclude o) ∧ hostRead d.op (drive o) = .next o := by
  obtain ⟨-, ⟨i, decoded⟩, rfl⟩ := present_eq_next.mp presented
  have runs : step { s with pending := some d, out := Outputs.noValue } = exec i s :=
    Encoding.step_of_decode rfl rfl decoded
  obtain ⟨o, ends, read⟩ := exec_hostRead i s
  exact ⟨o, runs.trans ends, opOf_of_decode decoded ▸ read⟩

theorem present_params {s t : State} {d : Descriptor} (presented : present d s = .next t) : t.params = s.params := by
  obtain ⟨-, -, rfl⟩ := present_eq_next.mp presented
  rfl

theorem present_of_pending {s : State} {e : Descriptor} (busy : s.pending = some e) (d : Descriptor) :
    present d s = .refused .overlap := by
  simp [present, busy]

/-! ### Reset (70_reset_and_hazards R165 to R169) -/

theorem default_legal : Params.default.Legal := by decide

/-! ### The obligations -/

/-- Settles O10: the step ends in an outcome, and every outcome has a code on `err`. -/
theorem presentedTransactionEnds : Obligations.PresentedTransactionEnds := by
  intro s t d presented
  obtain ⟨o, ends⟩ := Memory.step_of_present presented
  obtain ⟨c, at_most, driven⟩ := Exceptions.exists_drive_err_le_five o
  exact ⟨_, ends, conclude_pending t o, (conclude_params t o).trans (present_params presented), c, driven, at_most⟩

/-- Settles O13: the outcome that the transaction ends in is the one the host reads. -/
theorem checkedHostReadsWholeOutcome : Obligations.CheckedHostReadsWholeOutcome := by
  intro s t u d presented stepped
  obtain ⟨o, ends, read⟩ := step_of_present_hostRead presented
  obtain rfl : t.conclude o = u := Host.Outcome.next.inj (ends.symm.trans stepped)
  exact ⟨o, read, conclude_out t o⟩

/-- Settles O9. -/
theorem overlapRefused : Obligations.OverlapRefused := fun _ d _ busy => present_of_pending busy d

/-- Settles O15: reset makes a new CORE of the old one's parameters. -/
theorem resetKeepsOnlyParameters : Obligations.ResetKeepsOnlyParameters :=
  ⟨fun s => ⟨instantiate_params s.params, instantiate_pending s.params, instantiate_out s.params⟩,
    instantiate_out Params.default, instantiate_pending Params.default⟩

/-- Settles O44: the reset state is a new CORE with the default parameters, which are legal. -/
theorem freshInstanceMeetsInvariant : Obligations.FreshInstanceMeetsInvariant :=
  ⟨fun _ => CoreState.instantiate_inv, CoreState.instantiate_inv default_legal⟩

end Sys2Proof.ResetAndHazards
end
